-- ==== Sys2Proof/Word.lean ====
section
/-! DEFINITION. The bit-vector types of the CHIP-8 CORE (spec/00_scope.md R6, R8): everything is unsigned, and bit 0 is the
least significant bit. -/

namespace Sys2Proof

/-- A memory byte, a V register, a timer, the immediate `kk`. -/
abbrev Byte := BitVec 8

/-- A 16-bit value: an opcode, pc, I, a stack entry. -/
abbrev Word := BitVec 16

/-- A 4-bit opcode nibble: the register indices `x` and `y`, the sprite height `n`, a key number. -/
abbrev Nibble := BitVec 4

/-- The 12-bit address field `nnn`. -/
abbrev Addr12 := BitVec 12

end Sys2Proof
end

