-- ==== Sys2Proof/Config.lean ====
section
/-! DEFINITION. What is fixed for the machine (spec/00_scope.md R6), the parameters a host chooses at reset (R7), and the one
free value, the random byte (R85). -/

namespace Sys2Proof

/-- `MEM_SIZE`: addresses 0x000 to 0xFFF (R6, R24). -/
def Config.memSize : Nat := 0x1000

/-- `ROM_BASE`: where LoadRom writes and where pc starts (R6, R12). -/
def Config.romBase : Nat := 0x200

/-- `ROM_MAX`: the longest ROM LoadRom accepts (R6, R112). -/
def Config.romMax : Nat := 3584

/-- The longest `FONT_IMAGE` (R7, R141). -/
def Config.fontMax : Nat := 512

/-- The bytes a font glyph occupies (R6, R102). -/
def Config.fontStride : Nat := 5

/-- What a byte of memory that nothing has written reads as: reset memory is 0x00 throughout (R24, R140). -/
def Config.unlistedByte : Byte := 0x00#8

/-- FREE VALUE. The bytes the random source delivers: `Config.rnd k` is the one the k-th executed `RND` draws. The spec puts it
under no law (R7, R85, decision D16; assumption 1), so the constant has no body here and no proof can see a value of it. -/
opaque Config.rnd : Nat → Byte

/-- `FONT_IMAGE` (R7, R141): at most 512 bytes placed at 0x000 upward by reset. The bound is carried, so that a longer image is
not a parameter of the machine at all (assumption 12). -/
structure Config.FontImage where
  bytes : List Byte
  fits : bytes.length ≤ Config.fontMax
  deriving DecidableEq, Repr

/-- The parameters a reset takes, with the defaults the spec gives (R7, R20, R141). -/
structure Config.Params where
  indexIncrement : Bool := true
  fontImage : Option Config.FontImage := none
  deriving DecidableEq, Repr

end Sys2Proof
end

