-- ==== Sys2Proof/Syntax.lean ====
section
/-! DEFINITION. The Operation (spec/30_encoding.md R54): one constructor per row of the opcode table R50, carrying "only the
operand fields that opcode needs". The order is the table's. -/

namespace Sys2Proof

/-- The 34 instructions of R50. `x`, `y` are register indices, `kk` an immediate byte, `nnn` an address, `n` a sprite height. -/
inductive Instr where
  /-- 00E0 `CLS` (R60) -/
  | cls
  /-- 00EE `RET` (R61) -/
  | ret
  /-- 1nnn `JP nnn` (R62) -/
  | jp (nnn : Addr12)
  /-- 2nnn `CALL nnn` (R63) -/
  | call (nnn : Addr12)
  /-- 3xkk `SE Vx, kk` (R64) -/
  | seImm (x : Nibble) (kk : Byte)
  /-- 4xkk `SNE Vx, kk` (R65) -/
  | sneImm (x : Nibble) (kk : Byte)
  /-- 5xy0 `SE Vx, Vy` (R66) -/
  | seReg (x y : Nibble)
  /-- 6xkk `LD Vx, kk` (R70) -/
  | ldImm (x : Nibble) (kk : Byte)
  /-- 7xkk `ADD Vx, kk` (R71) -/
  | addImm (x : Nibble) (kk : Byte)
  /-- 8xy0 `LD Vx, Vy` (R72) -/
  | ldReg (x y : Nibble)
  /-- 8xy1 `OR Vx, Vy` (R73) -/
  | orReg (x y : Nibble)
  /-- 8xy2 `AND Vx, Vy` (R74) -/
  | andReg (x y : Nibble)
  /-- 8xy3 `XOR Vx, Vy` (R75) -/
  | xorReg (x y : Nibble)
  /-- 8xy4 `ADD Vx, Vy` (R76) -/
  | addReg (x y : Nibble)
  /-- 8xy5 `SUB Vx, Vy` (R77) -/
  | subReg (x y : Nibble)
  /-- 8xy6 `SHR Vx {, Vy}` (R78); `y` is carried and ignored (R54) -/
  | shrReg (x y : Nibble)
  /-- 8xy7 `SUBN Vx, Vy` (R79) -/
  | subnReg (x y : Nibble)
  /-- 8xyE `SHL Vx {, Vy}` (R80); `y` is carried and ignored (R54) -/
  | shlReg (x y : Nibble)
  /-- 9xy0 `SNE Vx, Vy` (R67) -/
  | sneReg (x y : Nibble)
  /-- Annn `LD I, nnn` (R100) -/
  | ldI (nnn : Addr12)
  /-- Bnnn `JP V0, nnn` (R68) -/
  | jpV0 (nnn : Addr12)
  /-- Cxkk `RND Vx, kk` (R85) -/
  | rnd (x : Nibble) (kk : Byte)
  /-- Dxyn `DRW Vx, Vy, n` (R86) -/
  | drw (x y n : Nibble)
  /-- Ex9E `SKP Vx` (R90) -/
  | skp (x : Nibble)
  /-- ExA1 `SKNP Vx` (R91) -/
  | sknp (x : Nibble)
  /-- Fx07 `LD Vx, DT` (R93) -/
  | ldVxDt (x : Nibble)
  /-- Fx0A `LD Vx, K` (R92) -/
  | ldVxK (x : Nibble)
  /-- Fx15 `LD DT, Vx` (R94) -/
  | ldDtVx (x : Nibble)
  /-- Fx18 `LD ST, Vx` (R95) -/
  | ldStVx (x : Nibble)
  /-- Fx1E `ADD I, Vx` (R101) -/
  | addI (x : Nibble)
  /-- Fx29 `LD F, Vx` (R102) -/
  | ldF (x : Nibble)
  /-- Fx33 `LD B, Vx` (R103) -/
  | ldB (x : Nibble)
  /-- Fx55 `LD [I], Vx` (R104) -/
  | ldMemVx (x : Nibble)
  /-- Fx65 `LD Vx, [I]` (R105) -/
  | ldVxMem (x : Nibble)
  deriving DecidableEq, Repr

end Sys2Proof
end

