-- ==== Sys2Proof/WellFormed.lean ====
section
/-! DEFINITION. The checks on what a host or a program writer hands the machine. An Operation's operands are ranged by their
types (spec/30_encoding.md R48: register indices are "always valid" and "never need range checks"), so `Instr.wellFormed` holds
of every term; the checks that can fail are those on a ROM image (R112) and on font bytes (R141). The check on memory's canonical
form is `Memory.wf` in Machine/Ops.lean. -/

namespace Sys2Proof

/-- The operand ranges of R48, each compared as a number. -/
def Instr.wellFormed : Instr → Bool
  | .cls | .ret => true
  | .jp nnn | .call nnn | .ldI nnn | .jpV0 nnn => decide (nnn.toNat ≤ 4095)
  | .seImm x kk | .sneImm x kk | .ldImm x kk | .addImm x kk | .rnd x kk =>
    decide (x.toNat ≤ 15) && decide (kk.toNat ≤ 255)
  | .seReg x y | .sneReg x y | .ldReg x y | .orReg x y | .andReg x y | .xorReg x y | .addReg x y
  | .subReg x y | .shrReg x y | .subnReg x y | .shlReg x y => decide (x.toNat ≤ 15) && decide (y.toNat ≤ 15)
  | .drw x y n => decide (x.toNat ≤ 15) && decide (y.toNat ≤ 15) && decide (n.toNat ≤ 15)
  | .skp x | .sknp x | .ldVxDt x | .ldVxK x | .ldDtVx x | .ldStVx x | .addI x | .ldF x | .ldB x
  | .ldMemVx x | .ldVxMem x => decide (x.toNat ≤ 15)

/-- The length LoadRom accepts (R112): at most 3584 bytes. -/
def romFits (bytes : List Byte) : Bool := decide (bytes.length ≤ Config.romMax)

/-- The length a `FONT_IMAGE` may have (R141): at most 512 bytes. -/
def fontFits (bytes : List Byte) : Bool := decide (bytes.length ≤ Config.fontMax)

end Sys2Proof
end

