-- ==== Sys2Proof/Decode.lean ====
section
/-! DEFINITION. The Decoder (spec/30_encoding.md): fields (R46), dispatch (R51), the opcode table (R50), and the encoder the same
formats (R47) give. The decoder is total on all 65536 words and on any bytes, and rejects by name (R49, R52). -/

namespace Sys2Proof

/-! ### Fields of the opcode (R46) -/

/-- `t = op[15:12]`, the primary dispatch nibble. -/
def Opcode.t (op : Word) : Nibble := op.extractLsb' 12 4
/-- `x = op[11:8]`. -/
def Opcode.x (op : Word) : Nibble := op.extractLsb' 8 4
/-- `y = op[7:4]`. -/
def Opcode.y (op : Word) : Nibble := op.extractLsb' 4 4
/-- `n = op[3:0]`. -/
def Opcode.n (op : Word) : Nibble := op.extractLsb' 0 4
/-- `kk = op[7:0]`. -/
def Opcode.kk (op : Word) : Byte := op.extractLsb' 0 8
/-- `nnn = op[11:0]`. -/
def Opcode.nnn (op : Word) : Addr12 := op.extractLsb' 0 12

/-! ### Formats (R47), highest bits first -/

/-- Format A: `t nnn`. -/
def formatA (t : Nibble) (nnn : Addr12) : Word := t ++ nnn
/-- Formats XK and XS: `t x kk`, the last byte an immediate or a sub-opcode. -/
def formatXK (t x : Nibble) (kk : Byte) : Word := t ++ x ++ kk
/-- Formats XY and XYN: `t x y n`, the last nibble a sub-opcode or the sprite height. -/
def formatXY (t x y n : Nibble) : Word := t ++ x ++ y ++ n

/-! ### The decoder -/

/-- Why the decoder gives no Operation. -/
inductive DecodeError where
  /-- No row of the opcode table matches (R52): the cycle reports the fault UnknownOpcode. Safe. -/
  | unknownOpcode (op : Word)
  /-- Fewer than the two bytes an instruction has (R45) were given. A cycle never raises it: fetch checks its bounds first. -/
  | truncated
  deriving DecidableEq, Repr

/-- Family 8 of R51, selected by the low nibble. -/
def decode8 (op : Word) : Except DecodeError Instr :=
  let x := Opcode.x op
  let y := Opcode.y op
  match Opcode.n op with
  | 0x0#4 => .ok (.ldReg x y)
  | 0x1#4 => .ok (.orReg x y)
  | 0x2#4 => .ok (.andReg x y)
  | 0x3#4 => .ok (.xorReg x y)
  | 0x4#4 => .ok (.addReg x y)
  | 0x5#4 => .ok (.subReg x y)
  | 0x6#4 => .ok (.shrReg x y)
  | 0x7#4 => .ok (.subnReg x y)
  | 0xE#4 => .ok (.shlReg x y)
  | _ => .error (.unknownOpcode op)

/-- Family F of R51, selected by the low byte. -/
def decodeF (op : Word) : Except DecodeError Instr :=
  let x := Opcode.x op
  match Opcode.kk op with
  | 0x07#8 => .ok (.ldVxDt x)
  | 0x0A#8 => .ok (.ldVxK x)
  | 0x15#8 => .ok (.ldDtVx x)
  | 0x18#8 => .ok (.ldStVx x)
  | 0x1E#8 => .ok (.addI x)
  | 0x29#8 => .ok (.ldF x)
  | 0x33#8 => .ok (.ldB x)
  | 0x55#8 => .ok (.ldMemVx x)
  | 0x65#8 => .ok (.ldVxMem x)
  | _ => .error (.unknownOpcode op)

/-- The decoder: a total function of the 16-bit opcode, in the dispatch order of R51, matching every fixed bit. -/
def decode (op : Word) : Except DecodeError Instr :=
  match Opcode.t op with
  | 0x0#4 =>
    if op = 0x00E0#16 then .ok .cls
    else if op = 0x00EE#16 then .ok .ret
    else .error (.unknownOpcode op)
  | 0x1#4 => .ok (.jp (Opcode.nnn op))
  | 0x2#4 => .ok (.call (Opcode.nnn op))
  | 0x3#4 => .ok (.seImm (Opcode.x op) (Opcode.kk op))
  | 0x4#4 => .ok (.sneImm (Opcode.x op) (Opcode.kk op))
  | 0x5#4 =>
    if Opcode.n op = 0x0#4 then .ok (.seReg (Opcode.x op) (Opcode.y op)) else .error (.unknownOpcode op)
  | 0x6#4 => .ok (.ldImm (Opcode.x op) (Opcode.kk op))
  | 0x7#4 => .ok (.addImm (Opcode.x op) (Opcode.kk op))
  | 0x8#4 => decode8 op
  | 0x9#4 =>
    if Opcode.n op = 0x0#4 then .ok (.sneReg (Opcode.x op) (Opcode.y op)) else .error (.unknownOpcode op)
  | 0xA#4 => .ok (.ldI (Opcode.nnn op))
  | 0xB#4 => .ok (.jpV0 (Opcode.nnn op))
  | 0xC#4 => .ok (.rnd (Opcode.x op) (Opcode.kk op))
  | 0xD#4 => .ok (.drw (Opcode.x op) (Opcode.y op) (Opcode.n op))
  | 0xE#4 =>
    if Opcode.kk op = 0x9E#8 then .ok (.skp (Opcode.x op))
    else if Opcode.kk op = 0xA1#8 then .ok (.sknp (Opcode.x op))
    else .error (.unknownOpcode op)
  | _ => decodeF op

/-- The opcode two consecutive bytes form: "a big-endian 16-bit opcode" (R32, R33). -/
def bigEndian (hi lo : Byte) : Word := hi ++ lo

/-- The high byte of an opcode, stored at the lower address (R32). -/
def highByte (op : Word) : Byte := op.extractLsb' 8 8

/-- The low byte of an opcode. -/
def lowByte (op : Word) : Byte := op.extractLsb' 0 8

/-- Decoding a byte stream: the instruction its first two bytes hold (R45, one length only) and the bytes after it. -/
def decodeBytes : List Byte → Except DecodeError (Instr × List Byte)
  | hi :: lo :: rest =>
    match decode (bigEndian hi lo) with
    | .ok i => .ok (i, rest)
    | .error e => .error e
  | _ => .error .truncated

/-! ### The encoder -/

/-- The word of an instruction, field by field from the patterns of R50. -/
def encode : Instr → Word
  | .cls => 0x00E0#16
  | .ret => 0x00EE#16
  | .jp nnn => formatA 0x1#4 nnn
  | .call nnn => formatA 0x2#4 nnn
  | .seImm x kk => formatXK 0x3#4 x kk
  | .sneImm x kk => formatXK 0x4#4 x kk
  | .seReg x y => formatXY 0x5#4 x y 0x0#4
  | .ldImm x kk => formatXK 0x6#4 x kk
  | .addImm x kk => formatXK 0x7#4 x kk
  | .ldReg x y => formatXY 0x8#4 x y 0x0#4
  | .orReg x y => formatXY 0x8#4 x y 0x1#4
  | .andReg x y => formatXY 0x8#4 x y 0x2#4
  | .xorReg x y => formatXY 0x8#4 x y 0x3#4
  | .addReg x y => formatXY 0x8#4 x y 0x4#4
  | .subReg x y => formatXY 0x8#4 x y 0x5#4
  | .shrReg x y => formatXY 0x8#4 x y 0x6#4
  | .subnReg x y => formatXY 0x8#4 x y 0x7#4
  | .shlReg x y => formatXY 0x8#4 x y 0xE#4
  | .sneReg x y => formatXY 0x9#4 x y 0x0#4
  | .ldI nnn => formatA 0xA#4 nnn
  | .jpV0 nnn => formatA 0xB#4 nnn
  | .rnd x kk => formatXK 0xC#4 x kk
  | .drw x y n => formatXY 0xD#4 x y n
  | .skp x => formatXK 0xE#4 x 0x9E#8
  | .sknp x => formatXK 0xE#4 x 0xA1#8
  | .ldVxDt x => formatXK 0xF#4 x 0x07#8
  | .ldVxK x => formatXK 0xF#4 x 0x0A#8
  | .ldDtVx x => formatXK 0xF#4 x 0x15#8
  | .ldStVx x => formatXK 0xF#4 x 0x18#8
  | .addI x => formatXK 0xF#4 x 0x1E#8
  | .ldF x => formatXK 0xF#4 x 0x29#8
  | .ldB x => formatXK 0xF#4 x 0x33#8
  | .ldMemVx x => formatXK 0xF#4 x 0x55#8
  | .ldVxMem x => formatXK 0xF#4 x 0x65#8

/-! ### The opcode table (R50): an opcode matches a row when `op and mask == match` (R49) -/

/-- One row of R50: its mask, its match value, and how its fields make the Operation (R54). -/
structure OpcodeRow where
  mask : Word
  value : Word
  operation : Word → Instr

/-- Whether an opcode matches a row (R49). -/
def OpcodeRow.accepts (r : OpcodeRow) (op : Word) : Bool := op &&& r.mask == r.value

/-- Rows 1 to 17 of R50. -/
def opcodeTableLow : List OpcodeRow := [
  ⟨0xFFFF#16, 0x00E0#16, fun _ => .cls⟩,
  ⟨0xFFFF#16, 0x00EE#16, fun _ => .ret⟩,
  ⟨0xF000#16, 0x1000#16, fun op => .jp (Opcode.nnn op)⟩,
  ⟨0xF000#16, 0x2000#16, fun op => .call (Opcode.nnn op)⟩,
  ⟨0xF000#16, 0x3000#16, fun op => .seImm (Opcode.x op) (Opcode.kk op)⟩,
  ⟨0xF000#16, 0x4000#16, fun op => .sneImm (Opcode.x op) (Opcode.kk op)⟩,
  ⟨0xF00F#16, 0x5000#16, fun op => .seReg (Opcode.x op) (Opcode.y op)⟩,
  ⟨0xF000#16, 0x6000#16, fun op => .ldImm (Opcode.x op) (Opcode.kk op)⟩,
  ⟨0xF000#16, 0x7000#16, fun op => .addImm (Opcode.x op) (Opcode.kk op)⟩,
  ⟨0xF00F#16, 0x8000#16, fun op => .ldReg (Opcode.x op) (Opcode.y op)⟩,
  ⟨0xF00F#16, 0x8001#16, fun op => .orReg (Opcode.x op) (Opcode.y op)⟩,
  ⟨0xF00F#16, 0x8002#16, fun op => .andReg (Opcode.x op) (Opcode.y op)⟩,
  ⟨0xF00F#16, 0x8003#16, fun op => .xorReg (Opcode.x op) (Opcode.y op)⟩,
  ⟨0xF00F#16, 0x8004#16, fun op => .addReg (Opcode.x op) (Opcode.y op)⟩,
  ⟨0xF00F#16, 0x8005#16, fun op => .subReg (Opcode.x op) (Opcode.y op)⟩,
  ⟨0xF00F#16, 0x8006#16, fun op => .shrReg (Opcode.x op) (Opcode.y op)⟩,
  ⟨0xF00F#16, 0x8007#16, fun op => .subnReg (Opcode.x op) (Opcode.y op)⟩]

/-- Rows 18 to 34 of R50. -/
def opcodeTableHigh : List OpcodeRow := [
  ⟨0xF00F#16, 0x800E#16, fun op => .shlReg (Opcode.x op) (Opcode.y op)⟩,
  ⟨0xF00F#16, 0x9000#16, fun op => .sneReg (Opcode.x op) (Opcode.y op)⟩,
  ⟨0xF000#16, 0xA000#16, fun op => .ldI (Opcode.nnn op)⟩,
  ⟨0xF000#16, 0xB000#16, fun op => .jpV0 (Opcode.nnn op)⟩,
  ⟨0xF000#16, 0xC000#16, fun op => .rnd (Opcode.x op) (Opcode.kk op)⟩,
  ⟨0xF000#16, 0xD000#16, fun op => .drw (Opcode.x op) (Opcode.y op) (Opcode.n op)⟩,
  ⟨0xF0FF#16, 0xE09E#16, fun op => .skp (Opcode.x op)⟩,
  ⟨0xF0FF#16, 0xE0A1#16, fun op => .sknp (Opcode.x op)⟩,
  ⟨0xF0FF#16, 0xF007#16, fun op => .ldVxDt (Opcode.x op)⟩,
  ⟨0xF0FF#16, 0xF00A#16, fun op => .ldVxK (Opcode.x op)⟩,
  ⟨0xF0FF#16, 0xF015#16, fun op => .ldDtVx (Opcode.x op)⟩,
  ⟨0xF0FF#16, 0xF018#16, fun op => .ldStVx (Opcode.x op)⟩,
  ⟨0xF0FF#16, 0xF01E#16, fun op => .addI (Opcode.x op)⟩,
  ⟨0xF0FF#16, 0xF029#16, fun op => .ldF (Opcode.x op)⟩,
  ⟨0xF0FF#16, 0xF033#16, fun op => .ldB (Opcode.x op)⟩,
  ⟨0xF0FF#16, 0xF055#16, fun op => .ldMemVx (Opcode.x op)⟩,
  ⟨0xF0FF#16, 0xF065#16, fun op => .ldVxMem (Opcode.x op)⟩]

/-- The 34 rows of R50, in the table's order. -/
def opcodeTable : List OpcodeRow := opcodeTableLow ++ opcodeTableHigh

/-- An instruction's row number in R50, counted from 0. -/
def rowOf : Instr → Nat
  | .cls => 0
  | .ret => 1
  | .jp _ => 2
  | .call _ => 3
  | .seImm _ _ => 4
  | .sneImm _ _ => 5
  | .seReg _ _ => 6
  | .ldImm _ _ => 7
  | .addImm _ _ => 8
  | .ldReg _ _ => 9
  | .orReg _ _ => 10
  | .andReg _ _ => 11
  | .xorReg _ _ => 12
  | .addReg _ _ => 13
  | .subReg _ _ => 14
  | .shrReg _ _ => 15
  | .subnReg _ _ => 16
  | .shlReg _ _ => 17
  | .sneReg _ _ => 18
  | .ldI _ => 19
  | .jpV0 _ => 20
  | .rnd _ _ => 21
  | .drw _ _ _ => 22
  | .skp _ => 23
  | .sknp _ => 24
  | .ldVxDt _ => 25
  | .ldVxK _ => 26
  | .ldDtVx _ => 27
  | .ldStVx _ => 28
  | .addI _ => 29
  | .ldF _ => 30
  | .ldB _ => 31
  | .ldMemVx _ => 32
  | .ldVxMem _ => 33

/-- Decoding by table lookup, as R49 describes it: the Operation of the row that matches. -/
def tableDecode (op : Word) : Except DecodeError Instr :=
  match opcodeTable.find? (fun r => r.accepts op) with
  | some r => .ok (r.operation op)
  | none => .error (.unknownOpcode op)

/-- The families R52 lists as illegal, by the opcode's nibbles. -/
def illegalOpcode (op : Word) : Bool :=
  (Opcode.t op == 0x0#4 && op != 0x00E0#16 && op != 0x00EE#16)
    || (Opcode.t op == 0x5#4 && Opcode.n op != 0x0#4)
    || (Opcode.t op == 0x8#4 && [0x8#4, 0x9#4, 0xA#4, 0xB#4, 0xC#4, 0xD#4, 0xF#4].contains (Opcode.n op))
    || (Opcode.t op == 0x9#4 && Opcode.n op != 0x0#4)
    || (Opcode.t op == 0xE#4 && !(([0x9E#8, 0xA1#8] : List Byte).contains (Opcode.kk op)))
    || (Opcode.t op == 0xF#4
        && !(([0x07#8, 0x0A#8, 0x15#8, 0x18#8, 0x1E#8, 0x29#8, 0x33#8, 0x55#8, 0x65#8] : List Byte).contains (Opcode.kk op)))

/-! ### The opcode table's numbering, for the host -/

/-- The 16 bits of a table word: every bit above `nbits` is 0, and an instruction has one word (R45). -/
def tableWord (nbits w : Nat) : Word := BitVec.ofNat 16 (w % 2 ^ nbits)

/-- What the decoder reads from an instruction whose bits, numbered as the opcode table numbers them, are `w`: the one word laid
out high byte first, as the hardware stores it (R32, R45). -/
def decodeTableWord (nbits w : Nat) : Option Instr :=
  match decodeBytes [highByte (tableWord nbits w), lowByte (tableWord nbits w)] with
  | .ok (i, _) => some i
  | .error _ => none

end Sys2Proof
end

