-- ==== Sys2Proof/Machine/State.lean ====
section
/-! DEFINITION. The MachineState (spec/10_state.md R28): every piece of state the spec names, as plain data, its value after
reset (spec/70_reset_and_hazards.md R140), and the reasons a cycle can stop (spec/60_exceptions.md R120). -/

namespace Sys2Proof.Machine

/-- Memory (R24): (address, byte) pairs, addresses strictly rising and below 0x1000, no byte equal to what an unlisted address
reads as (`Memory.wf`, assumption 5). -/
abbrev Memory := List Host.Cell

/-- The framebuffer (R22): 32 rows of 64 cells, true = on, row and column counted from the cell (0, 0). -/
abbrev Framebuffer := Vector (Vector Bool 64) 32

/-- The MachineState. `draws` is the model's own; every other field is a line of R28. -/
structure State where
  /-- V0 to VF (R10); VF is index 15 and doubles as the flag register (R11). -/
  v : Vector Byte 16
  /-- I, the index register (R16). -/
  i : Word
  /-- The program counter (R12). -/
  pc : Word
  /-- The stack pointer: how many return addresses are on the stack, 0 to 16 inclusive (R17, 90_conflicts C1; assumption 10). -/
  sp : Fin 17
  /-- The 16 return-address slots, outside memory (R21). -/
  stack : Vector Word 16
  /-- The 4096 bytes of memory (R24). -/
  mem : Memory
  /-- The delay timer (R18). -/
  dt : Byte
  /-- The sound timer (R19). -/
  st : Byte
  /-- The framebuffer (R22). -/
  fb : Framebuffer
  /-- The key latch, true = pressed (R23). -/
  key : Vector Bool 16
  /-- `INDEX_INCREMENT`, a strap no instruction writes (R20; assumption 6). -/
  indexIncrement : Bool
  /-- THE MODEL'S OWN: how many random bytes have been drawn; it selects the next free byte `Config.rnd draws` (R85;
  assumption 1). -/
  draws : Nat
  deriving DecidableEq, Repr

/-- Why a cycle ends without a next state. The spec's fault results carry the address the instruction was fetched from and, but
for a fetch fault, its opcode (R120). The state a fault leaves is `stateAfterStep` (R125; assumption 3). -/
inductive Fault where
  /-- Raised by a cycle whose opcode matches no row of the opcode table (R121). Safe: the spec's own fault. -/
  | unknownOpcode (addr : Word) (op : Word)
  /-- Raised by fetch when pc > 0xFFE (no opcode: `none`), and by `DRW`, `LD B`, `LD [I]`, `LD Vx, [I]` when a byte of their range
  lies outside memory (R122). Safe: the spec's own fault. -/
  | memoryFault (addr : Word) (op : Option Word)
  /-- Raised by `CALL` with 16 return addresses on the stack (R123). Safe: the spec's own fault. -/
  | stackOverflow (addr : Word) (op : Word)
  /-- Raised by `RET` with none on the stack (R124). Safe: the spec's own fault. -/
  | stackUnderflow (addr : Word) (op : Word)
  deriving DecidableEq, Repr

/-- Why an instruction has no meaning in the model. -/
inductive Refusal where
  /-- Raised by exec's arm of an instruction without a meaning; every instruction has one, so nothing raises it. Safe. -/
  | notModelled (mnemonic : String)
  deriving DecidableEq, Repr

/-- What a meaning answers. -/
abbrev Result := Host.Outcome State Fault Refusal

/-- The machine right after reset with the default parameters (R140): zero throughout but for pc = 0x200 and
`INDEX_INCREMENT` = true. No program is loaded (R142; assumption 9). -/
def State.reset : State where
  v := Vector.replicate 16 0x00#8
  i := 0x0000#16
  pc := 0x0200#16
  sp := 0
  stack := Vector.replicate 16 0x0000#16
  mem := []
  dt := 0x00#8
  st := 0x00#8
  fb := Vector.replicate 32 (Vector.replicate 64 false)
  key := Vector.replicate 16 false
  indexIncrement := true
  draws := 0

end Sys2Proof.Machine
end

