-- ==== Sys2Proof/Machine/Ops.lean ====
section
/-! DEFINITION. The named operations over memory, registers, the stack, the framebuffer, pc, and the one operation that raises a
fault (spec/10_state.md, spec/20_memory.md, spec/60_exceptions.md). -/

namespace Sys2Proof.Machine

/-! ### Memory (20_memory R30 to R41) -/

/-- `MemRead(a, 1)`: the byte listed at `a`, else what an unlisted address reads as. -/
def Memory.read : Memory → Nat → Byte
  | [], _ => Config.unlistedByte
  | (b, w) :: rest, a => if a = b then w else Memory.read rest a

/-- `MemWrite(a, 1, v)`: the entry at `a` becomes `v`, in the canonical form (an entry equal to the unlisted byte is dropped). -/
def Memory.write : Memory → Nat → Byte → Memory
  | [], a, v => if v = Config.unlistedByte then [] else [(a, v)]
  | (b, w) :: rest, a, v =>
    if a < b then (if v = Config.unlistedByte then (b, w) :: rest else (a, v) :: (b, w) :: rest)
    else if a = b then (if v = Config.unlistedByte then rest else (a, v) :: rest)
    else (b, w) :: Memory.write rest a v

/-- The canonical form from address `lo` up: addresses strictly rising, inside memory, no entry equal to the unlisted byte. -/
def Memory.wfFrom (lo : Nat) : Memory → Bool
  | [] => true
  | (b, w) :: rest =>
    decide (lo ≤ b) && decide (b < Config.memSize) && decide (w ≠ Config.unlistedByte) && Memory.wfFrom (b + 1) rest

/-- The canonical form of memory (assumption 5). -/
def Memory.wf (m : Memory) : Bool := Memory.wfFrom 0 m

/-- The `len` bytes from `a` upward, in ascending order (R39). -/
def Memory.readBytes (m : Memory) (a len : Nat) : List Byte := (List.range len).map (fun k => m.read (a + k))

/-- Stores the bytes from `a` upward, in ascending order (R39). -/
def Memory.writeBytes (m : Memory) (a : Nat) : List Byte → Memory
  | [] => m
  | b :: rest => Memory.writeBytes (m.write a b) (a + 1) rest

/-- `Fetch16(a)` (R33): the big-endian word at `a`, `a + 1`. -/
def Memory.fetch16 (m : Memory) (a : Nat) : Word := bigEndian (m.read a) (m.read (a + 1))

/-! ### Registers (10_state R10, R11, R16, R18, R19) -/

/-- `V[k]`. No register is hard-wired. -/
def State.reg (s : State) (k : Nibble) : Byte := s.v[k.toNat]'k.isLt

/-- `V[k] <- b`. -/
def State.setReg (s : State) (k : Nibble) (b : Byte) : State := { s with v := s.v.set k.toNat b k.isLt }

/-- The index of VF, the flag register (R11). -/
def vf : Nibble := 0xF#4

/-- `V[15] <- b`: a flag output. -/
def State.setFlag (s : State) (b : Byte) : State := s.setReg vf b

/-- `I <- a`. -/
def State.setI (s : State) (a : Word) : State := { s with i := a }

/-- `dt <- b`. -/
def State.setDt (s : State) (b : Byte) : State := { s with dt := b }

/-- `st <- b`. -/
def State.setSt (s : State) (b : Byte) : State := { s with st := b }

/-- The memory of a state replaced. -/
def State.setMem (s : State) (m : Memory) : State := { s with mem := m }

/-- The framebuffer of a state replaced. -/
def State.setFb (s : State) (f : Framebuffer) : State := { s with fb := f }

/-- One random byte has been drawn (R85: exactly one per executed `RND`). -/
def State.countDraw (s : State) : State := { s with draws := s.draws + 1 }

/-! ### Program counter (R12 to R14): its adder is 16 bits wide and wraps -/

/-- `pc <- a`. -/
def State.setPc (s : State) (a : Word) : State := { s with pc := a }

/-- `pc <- (pc + 2) mod 65536`: the fetch advance, and the extra 2 of a skip (R69). -/
def State.advancePc (s : State) : State := s.setPc (s.pc + 2#16)

/-- `pc <- (pc - 2) mod 65536`: the rewind of the key wait (R92). -/
def State.rewindPc (s : State) : State := s.setPc (s.pc - 2#16)

/-- The address the running instruction was fetched from: `pc - 2 (mod 65536)` while its rule runs (00_scope R8). -/
def State.instrAddr (s : State) : Word := s.pc - 2#16

/-! ### Call stack (R17, R21) -/

/-- Pushes a return address and counts it; none when 16 are held (R63). -/
def State.push (s : State) (a : Word) : Option State :=
  if h : s.sp.val < 16 then
    some { s with stack := s.stack.set s.sp.val a h, sp := ⟨s.sp.val + 1, by omega⟩ }
  else none

/-- Takes the top return address; none on an empty stack. The popped slot keeps its bits (R21, R61). -/
def State.pop (s : State) : Option (Word × State) :=
  if h : s.sp.val = 0 then none
  else some (s.stack[s.sp.val - 1]'(by omega), { s with sp := ⟨s.sp.val - 1, by omega⟩ })

/-! ### Framebuffer cells (R22) -/

/-- `fb[row][col]`. -/
def Framebuffer.cell (f : Framebuffer) (row : Fin 32) (col : Fin 64) : Bool := f[row.val][col.val]

/-- `fb[row][col] <- fb[row][col] xor 1`. -/
def Framebuffer.flip (f : Framebuffer) (row : Fin 32) (col : Fin 64) : Framebuffer :=
  f.set row.val (f[row.val].set col.val (!f[row.val][col.val]))

/-- The blank screen: all 2048 cells off. -/
def Framebuffer.blank : Framebuffer := Vector.replicate 32 (Vector.replicate 64 false)

/-! ### Key latch (R23) -/

/-- `key[k]`. -/
def State.keyAt (s : State) (k : Nibble) : Bool := s.key[k.toNat]'k.isLt

/-! ### Raising a fault (60_exceptions R120, R125) -/

/-- `raise F` from inside an instruction rule: the cycle ends with the fault, carrying the instruction's address and opcode (R110).
There is no trap entry inside the machine (R129): nothing is saved, no mode changes, and nothing but the fetch's advance of pc has
happened. The opcode is the encoding of the Operation, which is the word it was decoded from (assumption 4). -/
def raise (f : Word → Word → Fault) (i : Instr) (s : State) : Result := .fault (f s.instrAddr (encode i))

/-- `raise MemoryFault` from an instruction rule: the opcode is known. -/
def memoryFaultOf (addr op : Word) : Fault := .memoryFault addr (some op)

end Sys2Proof.Machine
end

