-- ==== Sys2Proof/Machine/Operands.lean ====
section
/-! DEFINITION. The operand forms (spec/30_encoding.md R48, spec/44_index_memory.md R106): zero-extended addresses and bytes,
the register-indirect range through I with its bounds check (spec/20_memory.md R36), the key a register names
(spec/43_keys_timers.md), and the operand values some instructions compute. Nothing is sign-extended. -/

namespace Sys2Proof.Machine

/-- `zext_16(nnn)`. -/
def zextAddr (nnn : Addr12) : Word := nnn.setWidth 16

/-- `zext_16(Vx)`. -/
def zextByte (b : Byte) : Word := b.setWidth 16

/-- Whether the `len` bytes from address `a` all lie in 0x000 to 0xFFF: the sum is over the integers, and an empty range always does
(R36). -/
def rangeInMemory (a len : Nat) : Bool := decide (len = 0) || decide (a + len - 1 ≤ 0xFFF)

/-- The bounds check of a data access of `len` bytes through I. -/
def State.dataInMemory (s : State) (len : Nat) : Bool := rangeInMemory s.i.toNat len

/-- How many registers `LD [I], Vx` and `LD Vx, [I]` move: x + 1 (R36). -/
def regCount (x : Nibble) : Nat := x.toNat + 1

/-- The registers V0 to Vx, V0 first (R104). -/
def State.regsUpTo (s : State) (x : Nibble) : List Byte := s.v.toList.take (regCount x)

/-- `V[k] <- MemRead(a + k, 1)` for k below the count, in ascending order (R105). -/
def loadRegs (m : Memory) (a : Nat) : Nat → Vector Byte 16 → Vector Byte 16
  | 0, v => v
  | k + 1, v => (loadRegs m a k v).setIfInBounds k (m.read (a + k))

/-- I after a register dump or load: advanced by x + 1 when `INDEX_INCREMENT` is true, else unchanged (R20, R104, R105). -/
def State.indexAfter (s : State) (x : Nibble) : Word :=
  if s.indexIncrement then BitVec.ofNat 16 (s.i.toNat + x.toNat + 1) else s.i

/-- The address of a glyph: five bytes each, the whole byte counted (R102). -/
def fontAddr (b : Byte) : Word := BitVec.ofNat 16 (b.toNat * Config.fontStride)

/-- The decimal digits of a byte: hundreds, tens, ones (R103). -/
def bcdDigits (b : Byte) : List Byte :=
  [BitVec.ofNat 8 (b.toNat / 100), BitVec.ofNat 8 (b.toNat / 10 % 10), BitVec.ofNat 8 (b.toNat % 10)]

/-- Whether the key a register's whole value names is pressed; a value above 15 names none (R90). -/
def State.keyPressed (s : State) (k : Byte) : Bool :=
  decide (k.toNat ≤ 15) && s.keyAt (k.setWidth 4)

/-- The lowest pressed key from `k` upward, `fuel` keys being left to look at. -/
def lowestKeyFrom (s : State) (k : Nat) : Nat → Option Nibble
  | 0 => none
  | fuel + 1 => if s.keyAt (BitVec.ofNat 4 k) then some (BitVec.ofNat 4 k) else lowestKeyFrom s (k + 1) fuel

/-- `min { k | key[k] == 1 }`, none when no key is pressed (R92). -/
def State.lowestKey (s : State) : Option Nibble := lowestKeyFrom s 0 16

/-- A conditional skip: 2 more when the condition holds (R64 to R67, R90, R91). -/
def State.skipIf (s : State) (c : Bool) : State := if c then s.advancePc else s

end Sys2Proof.Machine
end

