-- ==== Sys2Proof/Machine/Flags.lean ====
section
/-! DEFINITION. Every flag the spec computes (spec/10_state.md R11, spec/41_alu.md R83): VF is the only flag (R15), and each value
is 0 or 1. -/

namespace Sys2Proof.Machine

/-- A flag as the byte VF receives. -/
def flagByte (c : Bool) : Byte := if c then 0x01#8 else 0x00#8

/-- The carry of `ADD Vx, Vy`: 1 when the integer sum exceeds 255 (R76). -/
def carryFlag (a b : Byte) : Byte := flagByte (decide (a.toNat + b.toNat > 255))

/-- The not-borrow of `a - b`: 1 when a ≥ b (R77; R79 with the operands exchanged). -/
def notBorrowFlag (a b : Byte) : Byte := flagByte (decide (a.toNat ≥ b.toNat))

/-- The bit `SHR` drops: bit 0 (R78). -/
def lowBitFlag (a : Byte) : Byte := flagByte (a.getLsbD 0)

/-- The bit `SHL` drops: bit 7 (R80). -/
def highBitFlag (a : Byte) : Byte := flagByte (a.getLsbD 7)

/-- The flag `OR`, `AND` and `XOR` leave: 0 (R73 to R75). -/
def logicFlag : Byte := flagByte false

/-- The collision flag of `DRW`: 1 when a cell went from on to off (R86). -/
def collisionFlag (hit : Bool) : Byte := flagByte hit

end Sys2Proof.Machine
end

