-- ==== Sys2Proof/Machine/Alu.lean ====
section
/-! DEFINITION. Register loads, arithmetic, logic and shifts (spec/41_alu.md R70 to R83). The order of the result and the flag
write is R81's: result, then flag, but for the two shifts, whose flag comes first. -/

namespace Sys2Proof.Machine

/-- The result to Vx, then the flag to VF (R81 a). -/
def State.setResultThenFlag (s : State) (x : Nibble) (r flag : Byte) : State := (s.setReg x r).setFlag flag

/-- `LD Vx, kk` (R70). -/
def execLdImm (x : Nibble) (kk : Byte) (s : State) : Result := .next (s.setReg x kk)

/-- `ADD Vx, kk` (R71): wraps, no flag. -/
def execAddImm (x : Nibble) (kk : Byte) (s : State) : Result := .next (s.setReg x (s.reg x + kk))

/-- `LD Vx, Vy` (R72). -/
def execLdReg (x y : Nibble) (s : State) : Result := .next (s.setReg x (s.reg y))

/-- `OR Vx, Vy` (R73). -/
def execOrReg (x y : Nibble) (s : State) : Result := .next (s.setResultThenFlag x (s.reg x ||| s.reg y) logicFlag)

/-- `AND Vx, Vy` (R74). -/
def execAndReg (x y : Nibble) (s : State) : Result := .next (s.setResultThenFlag x (s.reg x &&& s.reg y) logicFlag)

/-- `XOR Vx, Vy` (R75). -/
def execXorReg (x y : Nibble) (s : State) : Result := .next (s.setResultThenFlag x (s.reg x ^^^ s.reg y) logicFlag)

/-- `ADD Vx, Vy` (R76). -/
def execAddReg (x y : Nibble) (s : State) : Result :=
  .next (s.setResultThenFlag x (s.reg x + s.reg y) (carryFlag (s.reg x) (s.reg y)))

/-- `SUB Vx, Vy` (R77). -/
def execSubReg (x y : Nibble) (s : State) : Result :=
  .next (s.setResultThenFlag x (s.reg x - s.reg y) (notBorrowFlag (s.reg x) (s.reg y)))

/-- `SUBN Vx, Vy` (R79): the minuend is Vy. -/
def execSubnReg (x y : Nibble) (s : State) : Result :=
  .next (s.setResultThenFlag x (s.reg y - s.reg x) (notBorrowFlag (s.reg y) (s.reg x)))

/-- `SHR Vx {, Vy}` (R78): VF first, then Vx is read again and shifted; Vy is ignored. -/
def execShrReg (x _y : Nibble) (s : State) : Result :=
  let t := s.setFlag (lowBitFlag (s.reg x))
  .next (t.setReg x (t.reg x >>> 1))

/-- `SHL Vx {, Vy}` (R80): VF first, then Vx is read again and shifted; Vy is ignored. -/
def execShlReg (x _y : Nibble) (s : State) : Result :=
  let t := s.setFlag (highBitFlag (s.reg x))
  .next (t.setReg x (t.reg x <<< 1))

end Sys2Proof.Machine
end

