-- ==== Sys2Proof/Machine/Draw.lean ====
section
/-! DEFINITION. Random number and sprite draw (spec/42_random_draw.md R85 to R88). -/

namespace Sys2Proof.Machine

/-- `RND Vx, kk` with the byte the random source delivers (R85). -/
def rndWith (drawn : Byte) (x : Nibble) (kk : Byte) (s : State) : State := (s.setReg x (drawn &&& kk)).countDraw

/-- `RND Vx, kk` (R85). The byte is free (assumption 1). -/
def execRnd (x : Nibble) (kk : Byte) (s : State) : Result := .next (rndWith (Config.rnd s.draws) x kk s)

/-- A draw in progress: the framebuffer, and whether a cell has gone from on to off. -/
structure DrawState where
  fb : Framebuffer
  hit : Bool
  deriving DecidableEq, Repr

/-- A sprite bit of 1 at a cell: a collision if the cell is on, and the cell flips (R86). -/
def DrawState.plot (d : DrawState) (row : Fin 32) (col : Fin 64) : DrawState :=
  { fb := d.fb.flip row col, hit := d.hit || d.fb.cell row col }

/-- Columns `c` to 7 of one sprite row, bit `7 - c` being column `c`; `left` columns are still to draw. -/
def drawBits (b : Byte) (x0 : Nat) (row : Fin 32) (c : Nat) : Nat → DrawState → DrawState
  | 0, d => d
  | left + 1, d =>
    drawBits b x0 row (c + 1) left (if b.getLsbD (7 - c) then d.plot row (Fin.ofNat 64 (x0 + c)) else d)

/-- The sprite's rows from row `r` on: row `r` lies at `(y0 + r) mod 32`, column `c` at `(x0 + c) mod 64` (R86). -/
def drawRows (x0 y0 : Nat) (r : Nat) : List Byte → DrawState → DrawState
  | [], d => d
  | b :: rest, d => drawRows x0 y0 (r + 1) rest (drawBits b x0 (Fin.ofNat 32 (y0 + r)) 0 8 d)

/-- The XOR-draw unit: `Draw(fb, x0, y0, rows)` (R86's loops; R87 states what they amount to). -/
def drawSprite (f : Framebuffer) (x0 y0 : Nat) (rows : List Byte) : DrawState :=
  drawRows x0 y0 0 rows { fb := f, hit := false }

/-- `DRW Vx, Vy, n` (R86): the range is checked first, both coordinates are read before VF is written, and VF ends as the collision
flag. -/
def execDrw (x y n : Nibble) (s : State) : Result :=
  if s.dataInMemory n.toNat then
    let d := drawSprite s.fb ((s.reg x).toNat % 64) ((s.reg y).toNat % 32) (s.mem.readBytes s.i.toNat n.toNat)
    .next ((s.setFb d.fb).setFlag (collisionFlag d.hit))
  else raise memoryFaultOf (.drw x y n) s

end Sys2Proof.Machine
end

