-- ==== Sys2Proof/Machine/Flow.lean ====
section
/-! DEFINITION. Screen clear, flow control and conditional skips (spec/40_screen_flow.md R60 to R69). While a meaning runs, pc is
already the instruction's address plus 2 (00_scope R8). -/

namespace Sys2Proof.Machine

/-- `CLS` (R60). -/
def execCls (s : State) : Result := .next (s.setFb Framebuffer.blank)

/-- `RET` (R61). -/
def execRet (s : State) : Result :=
  match s.pop with
  | none => raise .stackUnderflow .ret s
  | some (a, t) => .next (t.setPc a)

/-- `JP nnn` (R62). -/
def execJp (nnn : Addr12) (s : State) : Result := .next (s.setPc (zextAddr nnn))

/-- `CALL nnn` (R63): pushes pc, which is already past the `CALL`. -/
def execCall (nnn : Addr12) (s : State) : Result :=
  match s.push s.pc with
  | none => raise .stackOverflow (.call nnn) s
  | some t => .next (t.setPc (zextAddr nnn))

/-- `SE Vx, kk` (R64). -/
def execSeImm (x : Nibble) (kk : Byte) (s : State) : Result := .next (s.skipIf (s.reg x == kk))

/-- `SNE Vx, kk` (R65). -/
def execSneImm (x : Nibble) (kk : Byte) (s : State) : Result := .next (s.skipIf (s.reg x != kk))

/-- `SE Vx, Vy` (R66). -/
def execSeReg (x y : Nibble) (s : State) : Result := .next (s.skipIf (s.reg x == s.reg y))

/-- `SNE Vx, Vy` (R67). -/
def execSneReg (x y : Nibble) (s : State) : Result := .next (s.skipIf (s.reg x != s.reg y))

/-- `JP V0, nnn` (R68). -/
def execJpV0 (nnn : Addr12) (s : State) : Result := .next (s.setPc (zextAddr nnn + zextByte (s.reg 0x0#4)))

end Sys2Proof.Machine
end

