-- ==== Sys2Proof/Machine/IndexMem.lean ====
section
/-! DEFINITION. Index register, font address, BCD, register dump and load (spec/44_index_memory.md R100 to R107). The last three
check their whole range before the first access (spec/20_memory.md R36). -/

namespace Sys2Proof.Machine

/-- `LD I, nnn` (R100). -/
def execLdI (nnn : Addr12) (s : State) : Result := .next (s.setI (zextAddr nnn))

/-- `ADD I, Vx` (R101): wraps at 16 bits, no flag. -/
def execAddI (x : Nibble) (s : State) : Result := .next (s.setI (s.i + zextByte (s.reg x)))

/-- `LD F, Vx` (R102): no memory access, no fault (R37). -/
def execLdF (x : Nibble) (s : State) : Result := .next (s.setI (fontAddr (s.reg x)))

/-- `LD B, Vx` (R103). -/
def execLdB (x : Nibble) (s : State) : Result :=
  if s.dataInMemory 3 then .next (s.setMem (s.mem.writeBytes s.i.toNat (bcdDigits (s.reg x))))
  else raise memoryFaultOf (.ldB x) s

/-- `LD [I], Vx` (R104). -/
def execLdMemVx (x : Nibble) (s : State) : Result :=
  if s.dataInMemory (regCount x) then
    .next ((s.setMem (s.mem.writeBytes s.i.toNat (s.regsUpTo x))).setI (s.indexAfter x))
  else raise memoryFaultOf (.ldMemVx x) s

/-- `LD Vx, [I]` (R105). -/
def execLdVxMem (x : Nibble) (s : State) : Result :=
  if s.dataInMemory (regCount x) then
    .next { s with v := loadRegs s.mem s.i.toNat (regCount x) s.v, i := s.indexAfter x }
  else raise memoryFaultOf (.ldVxMem x) s

end Sys2Proof.Machine
end

