-- ==== Sys2Proof/Machine/KeyTimer.lean ====
section
/-! DEFINITION. Key queries, key wait and timer access (spec/43_keys_timers.md R90 to R96). -/

namespace Sys2Proof.Machine

/-- `SKP Vx` (R90). -/
def execSkp (x : Nibble) (s : State) : Result := .next (s.skipIf (s.keyPressed (s.reg x)))

/-- `SKNP Vx` (R91). -/
def execSknp (x : Nibble) (s : State) : Result := .next (s.skipIf (!s.keyPressed (s.reg x)))

/-- `LD Vx, K` (R92): with no key pressed the wait is the rewound pc alone. -/
def execLdVxK (x : Nibble) (s : State) : Result :=
  match s.lowestKey with
  | none => .next s.rewindPc
  | some k => .next (s.setReg x (k.setWidth 8))

/-- `LD Vx, DT` (R93). -/
def execLdVxDt (x : Nibble) (s : State) : Result := .next (s.setReg x s.dt)

/-- `LD DT, Vx` (R94). -/
def execLdDtVx (x : Nibble) (s : State) : Result := .next (s.setDt (s.reg x))

/-- `LD ST, Vx` (R95). -/
def execLdStVx (x : Nibble) (s : State) : Result := .next (s.setSt (s.reg x))

end Sys2Proof.Machine
end

