-- ==== Sys2Proof/Machine/Cycle.lean ====
section
/-! DEFINITION. One cycle: fetch, decode, execute (spec/49_host_operations.md R110), and the state a cycle leaves, a fault
included (spec/60_exceptions.md R125). -/

namespace Sys2Proof.Machine

/-- Whether both bytes of the opcode at pc are in memory: pc ≤ 0xFFE (R34). No alignment and no lower bound (R35). -/
def State.fetchable (s : State) : Bool := decide (s.pc.toNat ≤ 0xFFE)

/-- The opcode at pc (R33). -/
def State.opcodeAtPc (s : State) : Word := s.mem.fetch16 s.pc.toNat

/-- The cycle of R110: fetch bounds, fetch and pc advance, decode, execute, in that order (R127). -/
def cycle (s : State) : Result :=
  if s.fetchable then
    match decode s.opcodeAtPc with
    | .ok i => exec i s.advancePc
    | .error _ => .fault (.unknownOpcode s.pc s.opcodeAtPc)
  else .fault (.memoryFault s.pc none)

/-- The state after a cycle, whatever its result (R125): after a fetch fault the state before it, after a decode or execute fault the
state before it with pc advanced. -/
def stateAfterCycle (s : State) : State :=
  match cycle s with
  | .next t => t
  | .fault _ => if s.fetchable then s.advancePc else s
  | .refused _ => s

/-- Places an opcode where the next cycle fetches it, high byte first (R32). Where pc admits no fetch (R34) there is no such
place, and the state stays as it is (assumption 16). -/
def placeOpcode (s : State) (op : Word) : State :=
  if s.fetchable then s.setMem (s.mem.writeBytes s.pc.toNat [highByte op, lowByte op]) else s

end Sys2Proof.Machine
end

