-- ==== Sys2Proof/Machine/Step.lean ====
section
/-! DEFINITION. The machine's step: the host operation Step (spec/49_host_operations.md R110), whose random byte is the free
value `Config.rnd` (assumption 1). -/

namespace Sys2Proof.Machine

/-- One Step: a next state, or a fault handed to the host. -/
def step (s : State) : Host.Outcome State Fault Refusal := cycle s

/-- The state a Step leaves, whatever its result (R125). -/
def stateAfterStep (s : State) : State := stateAfterCycle s

/-- The state with the table word `w` stored where `step` fetches its next instruction. -/
def State.withFetchWord (s : State) (nbits w : Nat) : State := placeOpcode s (tableWord nbits w)

end Sys2Proof.Machine
end

