-- ==== Sys2Proof/Machine/HostOps.lean ====
section
/-! DEFINITION. The host operations other than Step (spec/49_host_operations.md R112 to R116) and Reset with its parameters
(spec/70_reset_and_hazards.md R140, R141). Each is atomic and happens between cycles (R116). -/

namespace Sys2Proof.Machine

/-- Reset with the host's parameters (R140, R141): the default reset, the strap as configured, and the font bytes, when given, from
0x000 upward. -/
def resetWith (p : Config.Params) : State :=
  let bytes := match p.fontImage with
    | none => []
    | some f => f.bytes
  { State.reset with indexIncrement := p.indexIncrement, mem := Memory.writeBytes State.reset.mem 0 bytes }

/-- `LoadRom(bytes)` (R112): none is the error RomTooLarge, with nothing copied. -/
def loadRom (bytes : List Byte) (s : State) : Option State :=
  if romFits bytes then
    some ((s.setMem (s.mem.writeBytes Config.romBase bytes)).setPc (BitVec.ofNat 16 Config.romBase))
  else none

/-- One down-count, floored at 0 (R113). -/
def countDown (b : Byte) : Byte := if b.toNat > 0 then b - 1#8 else b

/-- `Tick` (R113): both timers, each independently. -/
def tick (s : State) : State := (s.setDt (countDown s.dt)).setSt (countDown s.st)

/-- `SetKey(k, b)` (R114). -/
def setKey (k : Nibble) (pressed : Bool) (s : State) : State := { s with key := s.key.set k.toNat pressed k.isLt }

/-- What the host may apply between cycles (R110 to R116). Reset is not among them: it creates the state, and no operation re-creates
it during a run (R27, R140). -/
inductive HostOp where
  /-- R112 -/
  | loadRom (bytes : List Byte)
  /-- R110 -/
  | step
  /-- R113 -/
  | tick
  /-- R114 -/
  | setKey (k : Nibble) (pressed : Bool)
  /-- R115 -/
  | observe
  deriving DecidableEq, Repr

/-- What an operation hands back to the host. -/
inductive HostResult where
  /-- The operation succeeded. -/
  | ok
  /-- A Step's fault (R110, R120). -/
  | stepFault (f : Fault)
  /-- LoadRom's error (R119, R120). -/
  | romTooLarge
  /-- A Step the model refuses; no instruction of the table is refused, so nothing answers this. -/
  | stepRefused (r : Refusal)
  /-- Observe's snapshot (R115): a state between two operations. -/
  | observed (snapshot : State)
  deriving DecidableEq, Repr

/-- One host operation: the state it leaves and its result. -/
def hostApply (op : HostOp) (s : State) : State × HostResult :=
  match op with
  | .loadRom bytes =>
    match loadRom bytes s with
    | some t => (t, .ok)
    | none => (s, .romTooLarge)
  | .step =>
    match step s with
    | .next t => (t, .ok)
    | .fault f => (stateAfterStep s, .stepFault f)
    | .refused r => (s, .stepRefused r)
  | .tick => (tick s, .ok)
  | .setKey k pressed => (setKey k pressed s, .ok)
  | .observe => (s, .observed s)

/-- Whether a decoded instruction is the key wait. -/
def isKeyWait : Instr → Bool
  | .ldVxK _ => true
  | .cls | .ret | .jp _ | .call _ | .seImm _ _ | .sneImm _ _ | .seReg _ _ | .sneReg _ _ | .ldImm _ _ | .addImm _ _
  | .ldReg _ _ | .orReg _ _ | .andReg _ _ | .xorReg _ _ | .addReg _ _ | .subReg _ _ | .subnReg _ _ | .shrReg _ _
  | .shlReg _ _ | .ldI _ | .jpV0 _ | .rnd _ _ | .drw _ _ _ | .skp _ | .sknp _ | .ldVxDt _ | .ldDtVx _ | .ldStVx _
  | .addI _ | .ldF _ | .ldB _ | .ldMemVx _ | .ldVxMem _ => false

/-- The "awaiting key" indication a Step's `Ok` may carry: true exactly when the instruction it executes is `LD Vx, K` and no key is
pressed (R111; assumption 19). No transition depends on it. -/
def State.awaitingKey (s : State) : Bool :=
  s.fetchable && s.lowestKey.isNone &&
    match decode s.opcodeAtPc with
    | .ok i => isKeyWait i
    | .error _ => false

/-- A schedule: any sequence of host operations (R7, R116), and the state it leaves. -/
def hostRun : List HostOp → State → State
  | [], s => s
  | op :: rest, s => hostRun rest (hostApply op s).1

/-- Whether an operation's result is a Step's fault. -/
def HostResult.isStepFault : HostResult → Bool
  | .stepFault _ => true
  | .ok | .romTooLarge | .stepRefused _ | .observed _ => false

/-- Whether some Step of a schedule faulted (R126: the fault is recorded for the whole run). -/
def runFaulted : List HostOp → State → Bool
  | [], _ => false
  | op :: rest, s => (hostApply op s).2.isStepFault || runFaulted rest (hostApply op s).1

/-- `pc` holds the address of a `JP` to itself (R150, R62). -/
def State.atSelfJump (s : State) : Bool :=
  s.fetchable && decide (s.opcodeAtPc = encode (.jp (s.pc.setWidth 12)))

/-- The two definitions of "the program has ended" R150 offers. They are an observer's: nothing in the core detects an end, and the host
may stop calling Step at any time. -/
inductive EndCondition where
  /-- "pc holds the address of a `JP` to itself" -/
  | selfJump
  /-- "a given number of Steps were taken" -/
  | stepsTaken (n : Nat)
  deriving DecidableEq, Repr

/-- Whether a schedule has brought the machine to an end, in the sense of a condition. A faulted run is never a final one (R126). -/
def EndCondition.reached (e : EndCondition) (ops : List HostOp) (s : State) : Bool :=
  !runFaulted ops s &&
    match e with
    | .selfJump => (hostRun ops s).atSelfJump
    | .stepsTaken n => ops.count .step == n

/-- THE PROGRAM HAS ENDED: the condition the model chooses of the two (R150, decision D27; assumption 21). -/
def programEnded (ops : List HostOp) (s : State) : Bool := EndCondition.selfJump.reached ops s

/-- The code of a fault (R120). -/
def Fault.code : Fault → Nat
  | .unknownOpcode _ _ => 1
  | .memoryFault _ _ => 2
  | .stackOverflow _ _ => 3
  | .stackUnderflow _ _ => 4

/-- The code an operation's result carries: a Step fault's, or 5 for RomTooLarge (R120). -/
def HostResult.code : HostResult → Option Nat
  | .stepFault f => some f.code
  | .romTooLarge => some 5
  | .ok | .stepRefused _ | .observed _ => none

/-- The address a fault records: where the instruction was fetched from (R110, R120). -/
def Fault.addr : Fault → Word
  | .unknownOpcode a _ | .memoryFault a _ | .stackOverflow a _ | .stackUnderflow a _ => a

/-- The opcode a fault records; none for a fetch fault (R110, R120). -/
def Fault.opcode : Fault → Option Word
  | .unknownOpcode _ op | .stackOverflow _ op | .stackUnderflow _ op => some op
  | .memoryFault _ op => op

end Sys2Proof.Machine
end

