-- ==== Sys2Proof/Safety.lean ====
section
/-! DEFINITION. The words the claims are stated in: what a transition leaves unchanged (frames), when an instruction faults
(spec/60_exceptions.md R120), the machine's invariant (spec/10_state.md R14, R26), and the states a host can reach. -/

namespace Sys2Proof.Machine

/-! ### Frames -/

/-- The parts of the state a frame speaks of: the fields of `State`. -/
inductive Part where
  | v | i | pc | sp | stack | mem | dt | st | fb | key | indexIncrement | draws
  deriving DecidableEq, Repr

/-- A part reads the same in two states: registers through their accessor, memory byte by byte, the others as values. -/
def Part.same : Part → State → State → Prop
  | .v, s, t => ∀ k : Nibble, t.reg k = s.reg k
  | .i, s, t => t.i = s.i
  | .pc, s, t => t.pc = s.pc
  | .sp, s, t => t.sp = s.sp
  | .stack, s, t => t.stack = s.stack
  | .mem, s, t => ∀ a : Nat, t.mem.read a = s.mem.read a
  | .dt, s, t => t.dt = s.dt
  | .st, s, t => t.st = s.st
  | .fb, s, t => ∀ (row : Fin 32) (col : Fin 64), t.fb.cell row col = s.fb.cell row col
  | .key, s, t => t.key = s.key
  | .indexIncrement, s, t => t.indexIncrement = s.indexIncrement
  | .draws, s, t => t.draws = s.draws

/-- The frame: every part but the named ones reads in `t` as in `s`. -/
def OnlyChanges (parts : List Part) (s t : State) : Prop := ∀ p : Part, p ∉ parts → p.same s t

/-- Every V register but the named ones reads in `t` as in `s`. -/
def OnlyRegsChange (regs : List Nibble) (s t : State) : Prop := ∀ k : Nibble, k ∉ regs → t.reg k = s.reg k

/-! ### Faults of an instruction (R120) -/

/-- The one fault condition R120 gives an instruction, false for the 28 it gives none. -/
def faultCondition : Instr → State → Bool
  | .ret, s => decide (s.sp.val = 0)
  | .call _, s => decide (s.sp.val = 16)
  | .drw _ _ n, s => decide (n.toNat > 0) && decide (s.i.toNat + n.toNat - 1 > 0xFFF)
  | .ldB _, s => decide (s.i.toNat + 2 > 0xFFF)
  | .ldMemVx x, s => decide (s.i.toNat + x.toNat > 0xFFF)
  | .ldVxMem x, s => decide (s.i.toNat + x.toNat > 0xFFF)
  | .cls, _ | .jp _, _ | .seImm _ _, _ | .sneImm _ _, _ | .seReg _ _, _ | .ldImm _ _, _ | .addImm _ _, _
  | .ldReg _ _, _ | .orReg _ _, _ | .andReg _ _, _ | .xorReg _ _, _ | .addReg _ _, _ | .subReg _ _, _
  | .shrReg _ _, _ | .subnReg _ _, _ | .shlReg _ _, _ | .sneReg _ _, _ | .ldI _, _ | .jpV0 _, _ | .rnd _ _, _
  | .skp _, _ | .sknp _, _ | .ldVxDt _, _ | .ldVxK _, _ | .ldDtVx _, _ | .ldStVx _, _ | .addI _, _
  | .ldF _, _ => false

/-- The code of the fault R120 gives an instruction, 0 where it gives none. -/
def faultCodeOf : Instr → Nat
  | .ret => 4
  | .call _ => 3
  | .drw _ _ _ | .ldB _ | .ldMemVx _ | .ldVxMem _ => 2
  | .cls | .jp _ | .seImm _ _ | .sneImm _ _ | .seReg _ _ | .ldImm _ _ | .addImm _ _ | .ldReg _ _
  | .orReg _ _ | .andReg _ _ | .xorReg _ _ | .addReg _ _ | .subReg _ _ | .shrReg _ _ | .subnReg _ _
  | .shlReg _ _ | .sneReg _ _ | .ldI _ | .jpV0 _ | .rnd _ _ | .skp _ | .sknp _ | .ldVxDt _ | .ldVxK _
  | .ldDtVx _ | .ldStVx _ | .addI _ | .ldF _ => 0

/-- A safe step: the cycle completes. -/
def SafeStep (s : State) : Prop := ∃ t : State, step s = .next t

/-! ### Which instructions write what (R11, R13, R28) -/

/-- The V registers an instruction writes: its destination, and VF for those that write a flag (R11). -/
def writtenRegs : Instr → List Nibble
  | .ldImm x _ | .addImm x _ | .ldReg x _ | .rnd x _ | .ldVxDt x | .ldVxK x => [x]
  | .orReg x _ | .andReg x _ | .xorReg x _ | .addReg x _ | .subReg x _ | .subnReg x _ | .shrReg x _ | .shlReg x _ =>
    [x, vf]
  | .drw _ _ _ => [vf]
  | .ldVxMem x => (List.range (x.toNat + 1)).map (BitVec.ofNat 4)
  | .cls | .ret | .jp _ | .call _ | .seImm _ _ | .sneImm _ _ | .seReg _ _ | .sneReg _ _ | .ldI _ | .jpV0 _
  | .skp _ | .sknp _ | .ldDtVx _ | .ldStVx _ | .addI _ | .ldF _ | .ldB _ | .ldMemVx _ => []

/-- The parts of the state an instruction may write (the "written by" column of R28); `draws` is the model's own. -/
def writtenParts : Instr → List Part
  | .cls => [.fb]
  | .ret => [.pc, .sp]
  | .call _ => [.pc, .sp, .stack]
  | .jp _ | .jpV0 _ | .seImm _ _ | .sneImm _ _ | .seReg _ _ | .sneReg _ _ | .skp _ | .sknp _ => [.pc]
  | .ldImm _ _ | .addImm _ _ | .ldReg _ _ | .orReg _ _ | .andReg _ _ | .xorReg _ _ | .addReg _ _ | .subReg _ _
  | .shrReg _ _ | .subnReg _ _ | .shlReg _ _ | .ldVxDt _ => [.v]
  | .ldVxK _ => [.v, .pc]
  | .rnd _ _ => [.v, .draws]
  | .drw _ _ _ => [.v, .fb]
  | .ldI _ | .addI _ | .ldF _ => [.i]
  | .ldDtVx _ => [.dt]
  | .ldStVx _ => [.st]
  | .ldB _ => [.mem]
  | .ldMemVx _ => [.mem, .i]
  | .ldVxMem _ => [.v, .i]

/-! ### The XOR-draw unit as a function (R87) -/

/-- `s(row, col)`: some row `r` and column `c` of the sprite falls on the cell with a bit of 1 (R87). -/
def spriteCovers (x0 y0 : Nat) (rows : List Byte) (row : Fin 32) (col : Fin 64) : Prop :=
  ∃ (r : Fin rows.length) (c : Fin 8),
    row.val = (y0 + r.val) % 32 ∧ col.val = (x0 + c.val) % 64 ∧ (rows[r.val]).getLsbD (7 - c.val) = true

/-! ### Invariant and reachable states -/

/-- The invariant every operation keeps: memory is in its canonical form; pc is at most 0x10FE, so that its adder never wraps (R14);
every return address on the stack was pushed by a fetchable `CALL` (R26 d), so it lies between 2 and 0x1000. That sp is at most 16 (R26 a) is
its type. -/
abbrev State.Inv (s : State) : Prop :=
  s.mem.wf = true ∧ s.pc.toNat ≤ 0x10FE ∧
    ∀ k : Fin 16, k.val < s.sp.val → 2 ≤ (s.stack[k.val]).toNat ∧ (s.stack[k.val]).toNat ≤ 0x1000

/-- The states a host can bring the machine to: a reset with any parameters, then any host operations (R26, R27). -/
inductive Reachable : State → Prop where
  | reset (p : Config.Params) : Reachable (resetWith p)
  | op (o : HostOp) (s : State) : Reachable s → Reachable (hostApply o s).1

/-- Two states that differ at most in stack slots at index sp and above, which nothing reads (R21). -/
def AgreeBelowSp (s t : State) : Prop :=
  t = { s with stack := t.stack } ∧ ∀ k : Fin 16, k.val < s.sp.val → t.stack[k.val] = s.stack[k.val]

/-- Two outcomes are of one kind: the same fault, the same refusal, or next states that a relation holds between. -/
def SameOutcome (rel : State → State → Prop) : Result → Result → Prop
  | .next s, .next t => rel s t
  | .fault f, .fault g => f = g
  | .refused r, .refused q => r = q
  | .next _, .fault _ | .next _, .refused _ | .fault _, .next _ | .fault _, .refused _ | .refused _, .next _
  | .refused _, .fault _ => False

end Sys2Proof.Machine
end

