-- ==== Sys2Proof/Certificates/Slice0/Obligations.lean ====
section
/-! DEFINITION. The statements for the provers. Each docstring names the rule of spec/ it formalises; "the spec's decision Dn" marks
a clause that the spec itself marks as its own choice (92_eei_decisions.md), and "assumption n" one of the model's log. While an
instruction's meaning runs, pc is already its address plus 2 (00_scope R8), so `s.pc - 2` is that address. -/

open Sys2Proof Sys2Proof.Machine

/-! ### Encoding and decoding -/

/-- Words written out from the opcode table R50 and the vectors of 95_test_vectors 2.1 decode as those vectors say, and the illegal
ones among them are refused. -/
def Obligations.SpecWordsDecode : Prop :=
  decode 0x00E0#16 = .ok .cls ∧ decode 0x1ABC#16 = .ok (.jp 0xABC#12) ∧
  decode 0x6105#16 = .ok (.ldImm 0x1#4 0x05#8) ∧ decode 0x5AB0#16 = .ok (.seReg 0xA#4 0xB#4) ∧
  decode 0x8AB7#16 = .ok (.subnReg 0xA#4 0xB#4) ∧ decode 0xDABF#16 = .ok (.drw 0xA#4 0xB#4 0xF#4) ∧
  decode 0xEAA1#16 = .ok (.sknp 0xA#4) ∧ decode 0xFA65#16 = .ok (.ldVxMem 0xA#4) ∧
  decode 0x0000#16 = .error (.unknownOpcode 0x0000#16) ∧ decode 0x5AB1#16 = .error (.unknownOpcode 0x5AB1#16) ∧
  decode 0xEAA0#16 = .error (.unknownOpcode 0xEAA0#16)

/-- Decoding the encoding of any well-formed instruction gives it back, every operand at every value (R46, R48, R54). -/
def Obligations.DecodeOfEncodeIsIdentity : Prop :=
  ∀ i : Instr, i.wellFormed = true → decode (encode i) = .ok i

/-- A word that decodes has one encoding: that of the instruction it decodes to, the ignored `y` of SHR and SHL included (R54). -/
def Obligations.EncodeOfDecodeIsIdentity : Prop :=
  ∀ (op : Word) (i : Instr), decode op = .ok i → encode i = op

/-- The nibble dispatch of R51 and the mask-and-match table of R50 are one decoder (R49). The patterns are the spec's decision D32, the
strictness its decision D5. -/
def Obligations.DispatchAgreesWithOpcodeTable : Prop :=
  ∀ op : Word, decode op = tableDecode op

/-- R49: the rows of R50 are pairwise disjoint, so at most one row matches an opcode. -/
def Obligations.AtMostOneTableRowMatches : Prop :=
  ∀ (op : Word) (j k : Nat) (r q : OpcodeRow), opcodeTable[j]? = some r → opcodeTable[k]? = some q →
    r.accepts op = true → q.accepts op = true → j = k

/-- The opcodes the decoder refuses are those of the families R52 lists, and every other opcode is an instruction (R52; the spec's
decisions D4, D5, D32). -/
def Obligations.RefusedOpcodesAreTheListedFamilies : Prop :=
  ∀ op : Word, (illegalOpcode op = true → decode op = .error (.unknownOpcode op)) ∧
    (illegalOpcode op = false → ∃ i : Instr, decode op = .ok i)

/-! ### The cycle and its faults -/

/-- When the two bytes at pc, the first the high byte, decode to an instruction, a Step is its meaning at the state with pc advanced by
2 (R33, R110). -/
def Obligations.StepRunsDecodedInstruction : Prop :=
  ∀ (s : State) (i : Instr), s.pc.toNat ≤ 0xFFE →
    decode (bigEndian (s.mem.read s.pc.toNat) (s.mem.read (s.pc.toNat + 1))) = .ok i →
    step s = exec i { s with pc := s.pc + 2#16 }

/-- A pc above 0xFFE faults at fetch and changes nothing (R34; the spec's decision D6). -/
def Obligations.FetchOutsideMemoryFaults : Prop :=
  ∀ s : State, s.pc.toNat > 0xFFE → step s = .fault (.memoryFault s.pc none) ∧ stateAfterStep s = s

/-- An opcode the decoder finds no match for is the fault UnknownOpcode, and the fetch has already advanced pc (R121). That the fault
carries pc and the opcode is R110 and R120, by the spec's decision D7; that nothing but pc changes is R125. -/
def Obligations.UnmatchedOpcodeFaults : Prop :=
  ∀ (s : State) (e : DecodeError), s.pc.toNat ≤ 0xFFE →
    decode (bigEndian (s.mem.read s.pc.toNat) (s.mem.read (s.pc.toNat + 1))) = .error e →
    step s = .fault (.unknownOpcode s.pc (bigEndian (s.mem.read s.pc.toNat) (s.mem.read (s.pc.toNat + 1)))) ∧
      stateAfterStep s = { s with pc := s.pc + 2#16 }

/-- R125: faults are precise and atomic. After a fetch fault the state is the one before; after any other it is the one before but for
pc, advanced by 2. -/
def Obligations.FaultedStepLeavesAllButPc : Prop :=
  ∀ (s : State) (f : Fault), step s = .fault f →
    (s.pc.toNat > 0xFFE → stateAfterStep s = s) ∧
    (s.pc.toNat ≤ 0xFFE → stateAfterStep s = { s with pc := s.pc + 2#16 })

/-- Whatever stage raises it, a Step's fault records the address the instruction was fetched from and the opcode fetched there, none
for a fetch fault (R110, R120; the spec's decision D7; assumption 4). -/
def Obligations.FaultRecordsAddressAndOpcode : Prop :=
  ∀ (s : State) (f : Fault), step s = .fault f →
    f.addr = s.pc ∧ f.opcode = if s.pc.toNat ≤ 0xFFE
      then some (bigEndian (s.mem.read s.pc.toNat) (s.mem.read (s.pc.toNat + 1))) else none

/-- An instruction faults exactly on the condition R120 gives it, with R120's code, and else completes; the 28 instructions R120 does
not name always complete (R120, an inference the spec marks as derived; codes: the spec's decision D7). -/
def Obligations.InstructionFaultsExactlyOnItsCondition : Prop :=
  ∀ (i : Instr) (s : State),
    (faultCondition i s = true → ∃ f : Fault, exec i s = .fault f ∧ f.code = faultCodeOf i) ∧
    (faultCondition i s = false → ∃ t : State, exec i s = .next t)

/-- A Step taken from the reset state, before any LoadRom, is UnknownOpcode at 0x200 with opcode 0x0000 (R142, derived by the spec from
its reset values, decision D2). -/
def Obligations.StepBeforeLoadRomIsUnknownOpcode : Prop :=
  step State.reset = .fault (.unknownOpcode 0x0200#16 0x0000#16)

/-! ### Screen, flow control, skips -/

/-- R60: `CLS` sets all 2048 cells off and touches nothing else. -/
def Obligations.ClsBlanksScreen : Prop :=
  ∀ s : State, ∃ t : State, exec .cls s = .next t ∧
    (∀ (row : Fin 32) (col : Fin 64), t.fb.cell row col = false) ∧ OnlyChanges [.fb] s t

/-- `RET` pops the top entry into pc, the slot keeping its bits; on an empty stack it faults (R61). -/
def Obligations.RetPopsIntoPc : Prop :=
  ∀ s : State,
    (s.sp.val = 0 → exec .ret s = .fault (.stackUnderflow (s.pc - 2#16) 0x00EE#16)) ∧
    (0 < s.sp.val → ∃ t : State, exec .ret s = .next t ∧ t.sp.val = s.sp.val - 1 ∧
      s.stack[s.sp.val - 1]? = some t.pc ∧ OnlyChanges [.sp, .pc] s t)

/-- `JP nnn` sets pc to any 12-bit target and touches nothing else (R62; that the target is unchecked: the spec's decision D6). -/
def Obligations.JpSetsPc : Prop :=
  ∀ (s : State) (nnn : Addr12), ∃ t : State, exec (.jp nnn) s = .next t ∧ t.pc.toNat = nnn.toNat ∧
    OnlyChanges [.pc] s t

/-- `CALL nnn` pushes the pc already past it and jumps; the 17th nested call faults (R63; the capacity: the spec's decision D3). -/
def Obligations.CallPushesAndJumps : Prop :=
  ∀ (s : State) (nnn : Addr12),
    (s.sp.val = 16 → exec (.call nnn) s = .fault (.stackOverflow (s.pc - 2#16) (encode (.call nnn)))) ∧
    (s.sp.val < 16 → ∃ t : State, exec (.call nnn) s = .next t ∧ t.stack[s.sp.val]? = some s.pc ∧
      (∀ k : Nat, k ≠ s.sp.val → t.stack[k]? = s.stack[k]?) ∧ t.sp.val = s.sp.val + 1 ∧
      t.pc.toNat = nnn.toNat ∧ OnlyChanges [.stack, .sp, .pc] s t)

/-- A `CALL` followed by a `RET`, wherever the `RET` stands, restores pc to the instruction after the `CALL` and sp to its value before it,
and leaves nothing else changed but the one stack slot the `CALL` wrote, which keeps the return address (R61, R63, R21). -/
def Obligations.RetUndoesCall : Prop :=
  ∀ (s : State) (nnn : Addr12) (p : Word), s.sp.val < 16 →
    ∃ t u : State, exec (.call nnn) s = .next t ∧ exec .ret { t with pc := p } = .next u ∧
      u.pc = s.pc ∧ u.sp = s.sp ∧ u.stack[s.sp.val]? = some s.pc ∧
      (∀ k : Nat, k ≠ s.sp.val → u.stack[k]? = s.stack[k]?) ∧ OnlyChanges [.stack] s u

/-- The four conditional skips add 2 to pc when their condition holds, and touch nothing else (R64 to R67; that the extra 2 wraps at 16
bits: the spec's decision D22; the meanings: its passage G3). -/
def Obligations.ComparesSkipOnTheirCondition : Prop :=
  ∀ (s : State) (x y : Nibble) (kk : Byte),
    (∃ t : State, exec (.seImm x kk) s = .next t ∧ OnlyChanges [.pc] s t ∧
      t.pc = if s.reg x = kk then s.pc + 2#16 else s.pc) ∧
    (∃ t : State, exec (.sneImm x kk) s = .next t ∧ OnlyChanges [.pc] s t ∧
      t.pc = if s.reg x = kk then s.pc else s.pc + 2#16) ∧
    (∃ t : State, exec (.seReg x y) s = .next t ∧ OnlyChanges [.pc] s t ∧
      t.pc = if s.reg x = s.reg y then s.pc + 2#16 else s.pc) ∧
    (∃ t : State, exec (.sneReg x y) s = .next t ∧ OnlyChanges [.pc] s t ∧
      t.pc = if s.reg x = s.reg y then s.pc else s.pc + 2#16)

/-- `JP V0, nnn` sets pc to the sum of nnn and V0, which never reaches the wrap (R68; that the register is V0 is the spec's decision
D14). -/
def Obligations.JpV0AddsV0 : Prop :=
  ∀ (s : State) (nnn : Addr12), ∃ t : State, exec (.jpV0 nnn) s = .next t ∧
    t.pc.toNat = nnn.toNat + (s.reg 0x0#4).toNat ∧ OnlyChanges [.pc] s t

/-- A jump to itself is a Step that leaves the whole state unchanged (R62, R150). -/
def Obligations.SelfJumpLeavesStateUnchanged : Prop :=
  ∀ (s : State) (nnn : Addr12), s.pc.toNat ≤ 0xFFE → nnn.toNat = s.pc.toNat →
    bigEndian (s.mem.read s.pc.toNat) (s.mem.read (s.pc.toNat + 1)) = encode (.jp nnn) → step s = .next s

/-! ### Loads, arithmetic, logic, shifts -/

/-- `LD Vx, kk` writes kk to Vx, VF included, and nothing else (R70; no flag: the spec's decision D21). -/
def Obligations.LdImmWritesByte : Prop :=
  ∀ (s : State) (x : Nibble) (kk : Byte), ∃ t : State, exec (.ldImm x kk) s = .next t ∧ t.reg x = kk ∧
    OnlyRegsChange [x] s t ∧ OnlyChanges [.v] s t

/-- `ADD Vx, kk` wraps mod 256 and writes no flag; `LD Vx, Vy` copies (R71, R72; no flag: the spec's decision D21). -/
def Obligations.AddImmAndLdRegWriteVxOnly : Prop :=
  ∀ (s : State) (x y : Nibble) (kk : Byte),
    (∃ t : State, exec (.addImm x kk) s = .next t ∧ (t.reg x).toNat = ((s.reg x).toNat + kk.toNat) % 256 ∧
      OnlyRegsChange [x] s t ∧ OnlyChanges [.v] s t) ∧
    (∃ t : State, exec (.ldReg x y) s = .next t ∧ t.reg x = s.reg y ∧ OnlyRegsChange [x] s t ∧ OnlyChanges [.v] s t)

/-- `OR`, `AND`, `XOR` combine Vx and Vy into Vx and reset VF to 0, which is what VF ends as when it is the destination (R73 to R75; the
order in that case: the spec's decision D8). -/
def Obligations.LogicCombinesAndResetsFlag : Prop :=
  ∀ (s : State) (x y : Nibble),
    (∃ t : State, exec (.orReg x y) s = .next t ∧ (x ≠ vf → t.reg x = s.reg x ||| s.reg y) ∧ t.reg vf = 0x00#8 ∧
      OnlyRegsChange [x, vf] s t ∧ OnlyChanges [.v] s t) ∧
    (∃ t : State, exec (.andReg x y) s = .next t ∧ (x ≠ vf → t.reg x = s.reg x &&& s.reg y) ∧ t.reg vf = 0x00#8 ∧
      OnlyRegsChange [x, vf] s t ∧ OnlyChanges [.v] s t) ∧
    (∃ t : State, exec (.xorReg x y) s = .next t ∧ (x ≠ vf → t.reg x = s.reg x ^^^ s.reg y) ∧ t.reg vf = 0x00#8 ∧
      OnlyRegsChange [x, vf] s t ∧ OnlyChanges [.v] s t)

/-- `ADD Vx, Vy`: the sum mod 256 in Vx, and VF = 1 when the sum exceeds 255, else 0, whatever x is (R76; the order when x = 0xF: the
spec's decision D8). -/
def Obligations.AddRegSetsCarry : Prop :=
  ∀ (s : State) (x y : Nibble), ∃ t : State, exec (.addReg x y) s = .next t ∧
    (x ≠ vf → (t.reg x).toNat = ((s.reg x).toNat + (s.reg y).toNat) % 256) ∧
    (t.reg vf = if (s.reg x).toNat + (s.reg y).toNat > 255 then 0x01#8 else 0x00#8) ∧
    OnlyRegsChange [x, vf] s t ∧ OnlyChanges [.v] s t

/-- `SUB` computes Vx − Vy and `SUBN` Vy − Vx, wrapped, and VF = 1 exactly when no borrow occurs, equal operands included (R77, R79;
order when x = 0xF: the spec's decision D8; SUBN's condition: D20). -/
def Obligations.SubtractsSetNotBorrow : Prop :=
  ∀ (s : State) (x y : Nibble),
    (∃ t : State, exec (.subReg x y) s = .next t ∧
      (x ≠ vf → (t.reg x).toNat = ((s.reg x).toNat + 256 - (s.reg y).toNat) % 256) ∧
      (t.reg vf = if (s.reg x).toNat ≥ (s.reg y).toNat then 0x01#8 else 0x00#8) ∧
      OnlyRegsChange [x, vf] s t ∧ OnlyChanges [.v] s t) ∧
    (∃ t : State, exec (.subnReg x y) s = .next t ∧
      (x ≠ vf → (t.reg x).toNat = ((s.reg y).toNat + 256 - (s.reg x).toNat) % 256) ∧
      (t.reg vf = if (s.reg y).toNat ≥ (s.reg x).toNat then 0x01#8 else 0x00#8) ∧
      OnlyRegsChange [x, vf] s t ∧ OnlyChanges [.v] s t)

/-- `SHR` and `SHL` shift Vx by one, whatever y is, and VF receives the bit dropped; with x = 0xF the flag is written first and then
shifted, so that VF ends 0 for SHR and 0 or 2 for SHL (R78, R80; the x = 0xF outcome: the spec's decision D9). -/
def Obligations.ShiftsCaptureDroppedBit : Prop :=
  ∀ (s : State) (x y : Nibble),
    (∃ t : State, exec (.shrReg x y) s = .next t ∧
      (x ≠ vf → (t.reg x).toNat = (s.reg x).toNat / 2 ∧ (t.reg vf).toNat = (s.reg x).toNat % 2) ∧
      (x = vf → t.reg vf = 0x00#8) ∧ OnlyRegsChange [x, vf] s t ∧ OnlyChanges [.v] s t) ∧
    (∃ t : State, exec (.shlReg x y) s = .next t ∧
      (x ≠ vf → (t.reg x).toNat = (s.reg x).toNat * 2 % 256 ∧ (t.reg vf).toNat = (s.reg x).toNat / 128) ∧
      (x = vf → (t.reg vf).toNat = (s.reg vf).toNat / 128 * 2) ∧ OnlyRegsChange [x, vf] s t ∧ OnlyChanges [.v] s t)

/-! ### Random and draw -/

/-- `RND` stores the drawn byte under the mask and draws exactly one byte; a result bit can be 1 only where kk has a 1, whatever byte is
drawn (R85; the byte is free: the spec's decision D16, assumption 1; the counter of draws is the model's own). -/
def Obligations.RndMasksOneDrawnByte : Prop :=
  ∀ (s : State) (x : Nibble) (kk : Byte), ∃ t : State, exec (.rnd x kk) s = .next t ∧
    t.reg x = Config.rnd s.draws &&& kk ∧
    (∀ b : Nat, kk.getLsbD b = false → (t.reg x).getLsbD b = false) ∧ t.draws = s.draws + 1 ∧
    OnlyRegsChange [x] s t ∧ OnlyChanges [.v, .draws] s t

/-- The XOR-draw unit: the loops of R86 compute the function of R87. Every cell becomes its XOR with the sprite's bit for it, and the hit
is 1 exactly when a cell that is on receives a 1 (R87, derived by the spec from R86). -/
def Obligations.DrawLoopsComputeXorFunction : Prop :=
  ∀ (f : Framebuffer) (x0 y0 : Nat) (rows : List Byte), rows.length ≤ 15 →
    (∀ (row : Fin 32) (col : Fin 64),
      (spriteCovers x0 y0 rows row col → (drawSprite f x0 y0 rows).fb.cell row col = !f.cell row col) ∧
      (¬ spriteCovers x0 y0 rows row col → (drawSprite f x0 y0 rows).fb.cell row col = f.cell row col)) ∧
    ((drawSprite f x0 y0 rows).hit = true ↔
      ∃ (row : Fin 32) (col : Fin 64), f.cell row col = true ∧ spriteCovers x0 y0 rows row col)

/-- `DRW` with its range in memory draws the n bytes at I at (Vx mod 64, Vy mod 32), both read before VF is written, sets VF to the
collision flag and leaves I and memory alone (R86, R87; operand order: the spec's decision D10). -/
def Obligations.DrwDrawsSpriteAndSetsCollision : Prop :=
  ∀ (s : State) (x y n : Nibble), ¬(n.toNat > 0 ∧ s.i.toNat + n.toNat - 1 > 0xFFF) →
    ∃ t : State, exec (.drw x y n) s = .next t ∧
      (∀ (row : Fin 32) (col : Fin 64),
        (spriteCovers ((s.reg x).toNat % 64) ((s.reg y).toNat % 32) (s.mem.readBytes s.i.toNat n.toNat) row col →
          t.fb.cell row col = !s.fb.cell row col) ∧
        (¬ spriteCovers ((s.reg x).toNat % 64) ((s.reg y).toNat % 32) (s.mem.readBytes s.i.toNat n.toNat) row col →
          t.fb.cell row col = s.fb.cell row col)) ∧
      ((∃ (row : Fin 32) (col : Fin 64), s.fb.cell row col = true ∧
          spriteCovers ((s.reg x).toNat % 64) ((s.reg y).toNat % 32) (s.mem.readBytes s.i.toNat n.toNat) row col) →
        t.reg vf = 0x01#8) ∧
      ((¬ ∃ (row : Fin 32) (col : Fin 64), s.fb.cell row col = true ∧
          spriteCovers ((s.reg x).toNat % 64) ((s.reg y).toNat % 32) (s.mem.readBytes s.i.toNat n.toNat) row col) →
        t.reg vf = 0x00#8) ∧
      OnlyRegsChange [vf] s t ∧ OnlyChanges [.v, .fb] s t

/-- `DRW` with n = 0 draws nothing, never faults whatever I holds, and sets VF to 0 (R86 corner a; the spec's decision D11). -/
def Obligations.DrwOfNoRowsClearsFlag : Prop :=
  ∀ (s : State) (x y : Nibble), ∃ t : State, exec (.drw x y 0x0#4) s = .next t ∧ t.reg vf = 0x00#8 ∧
    OnlyRegsChange [vf] s t ∧ OnlyChanges [.v] s t

/-- Drawing the same sprite twice at the same place restores the framebuffer, and the second draw collides exactly where the first one
turned a cell on (R86 corner e, whose flag clause holds as written on a blank screen; assumption 13). -/
def Obligations.DrawingTwiceRestoresScreen : Prop :=
  ∀ (s : State) (x y n : Nibble), x ≠ vf → y ≠ vf → ¬(n.toNat > 0 ∧ s.i.toNat + n.toNat - 1 > 0xFFF) →
    ∃ t u : State, exec (.drw x y n) s = .next t ∧ exec (.drw x y n) t = .next u ∧ u.fb = s.fb ∧
      (u.reg vf = 0x01#8 ↔ ∃ (row : Fin 32) (col : Fin 64), s.fb.cell row col = false ∧
        spriteCovers ((s.reg x).toNat % 64) ((s.reg y).toNat % 32) (s.mem.readBytes s.i.toNat n.toNat) row col)

/-! ### Keys and timers -/

/-- `SKP` skips when the key Vx names is pressed and `SKNP` when it is not; a value above 15 names no key and counts as not pressed (R90,
R91; no flag: the spec's decision D21; the wrap: D22). -/
def Obligations.KeySkipsFollowLatch : Prop :=
  ∀ (s : State) (x : Nibble),
    (∃ t : State, exec (.skp x) s = .next t ∧ OnlyChanges [.pc] s t ∧
      (s.key[(s.reg x).toNat]? = some true → t.pc = s.pc + 2#16) ∧
      (s.key[(s.reg x).toNat]? ≠ some true → t.pc = s.pc)) ∧
    (∃ t : State, exec (.sknp x) s = .next t ∧ OnlyChanges [.pc] s t ∧
      (s.key[(s.reg x).toNat]? = some true → t.pc = s.pc) ∧
      (s.key[(s.reg x).toNat]? ≠ some true → t.pc = s.pc + 2#16))

/-- `LD Vx, K` with no key pressed rewinds pc by 2 and changes nothing else; else it stores the lowest pressed key (R92; no wait for
release: the spec's decision D23). -/
def Obligations.KeyWaitStoresLowestPressed : Prop :=
  ∀ (s : State) (x : Nibble),
    ((∀ k : Nibble, s.keyAt k = false) → ∃ t : State, exec (.ldVxK x) s = .next t ∧ t.pc = s.pc - 2#16 ∧
      OnlyChanges [.pc] s t) ∧
    (∀ k : Nibble, s.keyAt k = true → (∀ j : Nibble, j.toNat < k.toNat → s.keyAt j = false) →
      ∃ t : State, exec (.ldVxK x) s = .next t ∧ (t.reg x).toNat = k.toNat ∧ OnlyRegsChange [x] s t ∧
        OnlyChanges [.v] s t)

/-- A Step of `LD Vx, K` with no key pressed leaves the entire state as it was before the cycle, and the optional "awaiting key" indication
says so (R92 corner a, derived by the spec; R111; that the model offers the indication: assumption 19). -/
def Obligations.KeyWaitStepLeavesStateUnchanged : Prop :=
  ∀ (s : State) (x : Nibble), s.pc.toNat ≤ 0xFFE →
    bigEndian (s.mem.read s.pc.toNat) (s.mem.read (s.pc.toNat + 1)) = encode (.ldVxK x) →
    (∀ k : Nibble, s.keyAt k = false) → step s = .next s ∧ s.awaitingKey = true

/-- The timer accesses copy between a register and dt or st, and touch nothing else (R93 to R95; no flag: the spec's decision D21). -/
def Obligations.TimerAccessesCopy : Prop :=
  ∀ (s : State) (x : Nibble),
    (∃ t : State, exec (.ldVxDt x) s = .next t ∧ t.reg x = s.dt ∧ OnlyRegsChange [x] s t ∧ OnlyChanges [.v] s t) ∧
    (∃ t : State, exec (.ldDtVx x) s = .next t ∧ t.dt = s.reg x ∧ OnlyChanges [.dt] s t) ∧
    (∃ t : State, exec (.ldStVx x) s = .next t ∧ t.st = s.reg x ∧ OnlyChanges [.st] s t)

/-- R96: the executor never decrements dt or st. No instruction changes dt but `LD DT, Vx`, nor st but `LD ST, Vx`, and each of these
writes its register's value. -/
def Obligations.ExecutorNeverCountsTimersDown : Prop :=
  ∀ (i : Instr) (s t : State), exec i s = .next t →
    (t.dt = s.dt ∨ ∃ x : Nibble, i = .ldDtVx x ∧ t.dt = s.reg x) ∧
    (t.st = s.st ∨ ∃ x : Nibble, i = .ldStVx x ∧ t.st = s.reg x)

/-! ### Index register and memory -/

/-- `LD I, nnn` sets I and touches nothing else (R100; the meaning: the spec's passage G3). -/
def Obligations.LdISetsIndex : Prop :=
  ∀ (s : State) (nnn : Addr12), ∃ t : State, exec (.ldI nnn) s = .next t ∧ t.i.toNat = nnn.toNat ∧
    OnlyChanges [.i] s t

/-- `ADD I, Vx` adds mod 65536 and writes no flag; `LD F, Vx` sets I to five times the whole byte, always inside memory (R101, R102; the
spec's decisions D13, D12). -/
def Obligations.AddIAndLdFSetIndex : Prop :=
  ∀ (s : State) (x : Nibble),
    (∃ t : State, exec (.addI x) s = .next t ∧ t.i.toNat = (s.i.toNat + (s.reg x).toNat) % 65536 ∧
      OnlyChanges [.i] s t) ∧
    (∃ t : State, exec (.ldF x) s = .next t ∧ t.i.toNat = (s.reg x).toNat * 5 ∧ t.i.toNat ≤ 0xFFF ∧
      OnlyChanges [.i] s t)

/-- `LD B, Vx` stores the hundreds, tens and ones of Vx at I, I + 1, I + 2, and no other byte (R103). That memory is in its canonical form
is the invariant `InvariantKeptByStep` states (assumption 5). -/
def Obligations.LdBStoresDecimalDigits : Prop :=
  ∀ (s : State) (x : Nibble), s.mem.wf = true → s.i.toNat + 2 ≤ 0xFFF →
    ∃ t : State, exec (.ldB x) s = .next t ∧
      (t.mem.read s.i.toNat).toNat = (s.reg x).toNat / 100 ∧
      (t.mem.read (s.i.toNat + 1)).toNat = (s.reg x).toNat / 10 % 10 ∧
      (t.mem.read (s.i.toNat + 2)).toNat = (s.reg x).toNat % 10 ∧
      (∀ a : Nat, a < s.i.toNat ∨ s.i.toNat + 3 ≤ a → t.mem.read a = s.mem.read a) ∧ OnlyChanges [.mem] s t

/-- `LD [I], Vx` stores V0 to Vx from I upward and no other byte, then advances I by x + 1 when INDEX_INCREMENT is true (R104; the switch is
the spec's decision D15). -/
def Obligations.RegisterDumpStoresV0ToVx : Prop :=
  ∀ (s : State) (x : Nibble), s.mem.wf = true → s.i.toNat + x.toNat ≤ 0xFFF →
    ∃ t : State, exec (.ldMemVx x) s = .next t ∧
      (∀ k : Nibble, k.toNat ≤ x.toNat → t.mem.read (s.i.toNat + k.toNat) = s.reg k) ∧
      (∀ a : Nat, a < s.i.toNat ∨ s.i.toNat + x.toNat + 1 ≤ a → t.mem.read a = s.mem.read a) ∧
      (t.i.toNat = if s.indexIncrement = true then s.i.toNat + x.toNat + 1 else s.i.toNat) ∧
      OnlyChanges [.mem, .i] s t

/-- `LD Vx, [I]` loads V0 to Vx from I upward and no other register, then advances I by x + 1 when INDEX_INCREMENT is true (R105; the switch
is the spec's decision D15). -/
def Obligations.RegisterLoadReadsV0ToVx : Prop :=
  ∀ (s : State) (x : Nibble), s.i.toNat + x.toNat ≤ 0xFFF →
    ∃ t : State, exec (.ldVxMem x) s = .next t ∧
      (∀ k : Nibble, k.toNat ≤ x.toNat → t.reg k = s.mem.read (s.i.toNat + k.toNat)) ∧
      (∀ k : Nibble, x.toNat < k.toNat → t.reg k = s.reg k) ∧
      (t.i.toNat = if s.indexIncrement = true then s.i.toNat + x.toNat + 1 else s.i.toNat) ∧
      OnlyChanges [.v, .i] s t

/-- A register dump followed by a register load from the same place brings V0 to Vx back, whatever the registers held between
(R104, R105, R41). -/
def Obligations.LoadAfterDumpRestoresRegisters : Prop :=
  ∀ (s : State) (x : Nibble), s.mem.wf = true → s.i.toNat + x.toNat ≤ 0xFFF →
    ∃ t : State, exec (.ldMemVx x) s = .next t ∧
      ∀ w : Vector Byte 16, ∃ u : State, exec (.ldVxMem x) { t with i := s.i, v := w } = .next u ∧
        ∀ k : Nibble, k.toNat ≤ x.toNat → u.reg k = s.reg k

/-- A `DRW`, `LD B`, `LD [I]` or `LD Vx, [I]` whose range leaves memory is a MemoryFault that carries its address and opcode; the sums are over
the integers, with no wrap (R36, R122; the spec's decisions D31, D7). -/
def Obligations.RangeOutsideMemoryFaults : Prop :=
  ∀ (s : State) (x y n : Nibble),
    (n.toNat > 0 ∧ s.i.toNat + n.toNat - 1 > 0xFFF →
      exec (.drw x y n) s = .fault (.memoryFault (s.pc - 2#16) (some (encode (.drw x y n))))) ∧
    (s.i.toNat + 2 > 0xFFF → exec (.ldB x) s = .fault (.memoryFault (s.pc - 2#16) (some (encode (.ldB x))))) ∧
    (s.i.toNat + x.toNat > 0xFFF →
      exec (.ldMemVx x) s = .fault (.memoryFault (s.pc - 2#16) (some (encode (.ldMemVx x))))) ∧
    (s.i.toNat + x.toNat > 0xFFF →
      exec (.ldVxMem x) s = .fault (.memoryFault (s.pc - 2#16) (some (encode (.ldVxMem x)))))

/-- Self-modifying code: after a register dump, the opcode fetched at any stored pair of bytes is the pair just stored, high byte
first (R44, derived by the spec; R32). -/
def Obligations.StoredCodeIsFetched : Prop :=
  ∀ (s : State) (x j k : Nibble), s.mem.wf = true → s.i.toNat + x.toNat ≤ 0xFFF → k.toNat ≤ x.toNat →
    j.toNat + 1 = k.toNat →
    ∃ t : State, exec (.ldMemVx x) s = .next t ∧
      State.opcodeAtPc { t with pc := BitVec.ofNat 16 (s.i.toNat + j.toNat) } = bigEndian (s.reg j) (s.reg k)

/-! ### Host operations -/

/-- R113: `Tick` counts both timers down by one, each independently and floored at 0, cannot fail, and changes nothing else. -/
def Obligations.TickCountsTimersDown : Prop :=
  ∀ s : State, ∃ t : State, hostApply .tick s = (t, .ok) ∧ t.dt.toNat = s.dt.toNat - 1 ∧ t.st.toNat = s.st.toNat - 1 ∧
    OnlyChanges [.dt, .st] s t

/-- R114: `SetKey(k, b)` sets key k, cannot fail, and changes no other key and nothing else; and no other operation, a Step included,
changes the latch. -/
def Obligations.SetKeySetsOneKey : Prop :=
  (∀ (s : State) (k : Nibble) (b : Bool), ∃ t : State, hostApply (.setKey k b) s = (t, .ok) ∧ t.keyAt k = b ∧
    (∀ j : Nibble, j ≠ k → t.keyAt j = s.keyAt j) ∧ OnlyChanges [.key] s t) ∧
  (∀ (op : HostOp) (s : State), (∀ (k : Nibble) (b : Bool), op ≠ .setKey k b) → (hostApply op s).1.key = s.key)

/-- `LoadRom` copies at most 3584 bytes to 0x200 upward and sets pc to 0x200; a longer ROM is RomTooLarge with nothing changed (R112; that
nothing else changes: the spec's decision D17). -/
def Obligations.LoadRomCopiesOrRejects : Prop :=
  ∀ (s : State) (bytes : List Byte), s.mem.wf = true →
    (bytes.length > 3584 → hostApply (.loadRom bytes) s = (s, .romTooLarge)) ∧
    (bytes.length ≤ 3584 → ∃ t : State, hostApply (.loadRom bytes) s = (t, .ok) ∧ t.pc.toNat = 0x200 ∧
      (∀ (k : Nat) (b : Byte), bytes[k]? = some b → t.mem.read (0x200 + k) = b) ∧
      (∀ a : Nat, a < 0x200 ∨ 0x200 + bytes.length ≤ a → t.mem.read a = s.mem.read a) ∧
      OnlyChanges [.mem, .pc] s t)

/-- A program that has ended, by the model's choice of a self-jump, stays ended under every further operation but a LoadRom, and further
Steps leave the whole state unchanged (R150, R62; that a self-jump is the end: the spec's decision D27 and assumption 21). -/
def Obligations.EndedProgramStaysEnded : Prop :=
  ∀ (ops more : List HostOp) (s : State), programEnded ops s = true →
    ((∀ bytes : List Byte, .loadRom bytes ∉ more) → programEnded (ops ++ more) s = true) ∧
    ((∀ op ∈ more, op = .step) → hostRun (ops ++ more) s = hostRun ops s)

/-- A run in which a Step has faulted reaches no end, by either end condition, whatever the host does after it (R126, R150). -/
def Obligations.FaultedRunNeverEnds : Prop :=
  ∀ (e : EndCondition) (ops more : List HostOp) (s : State), runFaulted ops s = true →
    e.reached (ops ++ more) s = false

/-! ### Reset and the whole machine -/

/-- The reset state of R140. pc and the zeroed low memory are the source's; every other zero is the spec's decision D2, and the strap's
default its decision D15 (assumptions 2, 6). -/
def Obligations.ResetHoldsTheListedValues : Prop :=
  (∀ k : Nibble, State.reset.reg k = 0x00#8) ∧ State.reset.i = 0x0000#16 ∧ State.reset.pc = 0x0200#16 ∧
  State.reset.sp.val = 0 ∧ (∀ k : Fin 16, State.reset.stack[k.val] = 0x0000#16) ∧
  (∀ a : Nat, State.reset.mem.read a = 0x00#8) ∧ State.reset.dt = 0x00#8 ∧ State.reset.st = 0x00#8 ∧
  (∀ (row : Fin 32) (col : Fin 64), State.reset.fb.cell row col = false) ∧
  (∀ k : Nibble, State.reset.keyAt k = false) ∧ State.reset.indexIncrement = true ∧ resetWith {} = State.reset

/-- Reset with a FONT_IMAGE puts its bytes at 0x000 upward and leaves the rest of memory zero; INDEX_INCREMENT is as configured (R140,
R141; the spec's decisions D18, D15). -/
def Obligations.FontImageFillsLowMemory : Prop :=
  ∀ (inc : Bool) (font : Config.FontImage),
    (resetWith { indexIncrement := inc, fontImage := some font }).indexIncrement = inc ∧
    (∀ (k : Nat) (b : Byte), font.bytes[k]? = some b →
      (resetWith { indexIncrement := inc, fontImage := some font }).mem.read k = b) ∧
    (∀ a : Nat, font.bytes.length ≤ a →
      (resetWith { indexIncrement := inc, fontImage := some font }).mem.read a = 0x00#8)

/-- The invariant holds at reset, whatever its parameters. -/
def Obligations.InvariantHoldsAtReset : Prop :=
  State.reset.Inv ∧ ∀ p : Config.Params, (resetWith p).Inv

/-- A Step that answers a next state keeps the invariant: memory stays canonical and inside 0x000 to 0xFFF, pc never exceeds 0x10FE, and every
return address on the stack lies between 2 and 0x1000 (R14, R26 d, both derived by the spec). -/
def Obligations.InvariantKeptByStep : Prop :=
  ∀ s t : State, s.Inv → step s = .next t → t.Inv

/-- Every host operation keeps the invariant, a faulting Step and a rejected LoadRom included, so pc's adder never wraps under any schedule
(R14, R26, R116). -/
def Obligations.InvariantKeptByEveryHostOperation : Prop :=
  ∀ (op : HostOp) (s : State), s.Inv → (hostApply op s).1.Inv

/-- Every instruction writes only the registers and the parts of the state that R11, R13 and R28 list for it. -/
def Obligations.InstructionsWriteOnlyTheirParts : Prop :=
  ∀ (i : Instr) (s t : State), exec i s = .next t →
    OnlyChanges (writtenParts i) s t ∧ OnlyRegsChange (writtenRegs i) s t

/-- No Step writes the key latch or the INDEX_INCREMENT strap (R20, R23). -/
def Obligations.StepNeverWritesKeysOrStrap : Prop :=
  ∀ s t : State, step s = .next t → t.key = s.key ∧ t.indexIncrement = s.indexIncrement

/-- Stack slots at index sp and above are never read: two states that differ only there take Steps with the same outcome, to states that
again differ only there (R21, derived by the spec). -/
def Obligations.StackAboveSpIsUnobservable : Prop :=
  ∀ s t : State, AgreeBelowSp s t → SameOutcome AgreeBelowSp (step s) (step t)

/-- No instruction reads the sound timer: two states that differ only in st take Steps with the same outcome, to states that differ at most
in st (R19, R95). -/
def Obligations.SoundTimerIsUnobservable : Prop :=
  ∀ (s : State) (b : Byte), SameOutcome (fun u w => w = { u with st := w.st }) (step s) (step { s with st := b })
end

