-- ==== Sys2Proof/Laws/Encoding.lean ====
section
/-! SUPPORT. The fields of a word built in a format are the parts it was built from, and a word is built from its fields
(spec/30_encoding.md R46, R47). -/

namespace Sys2Proof

theorem formatA_toNat (t : Nibble) (nnn : Addr12) : (formatA t nnn).toNat = t.toNat * 4096 + nnn.toNat := by
  have := nnn.isLt
  rw [formatA, BitVec.toNat_append, ← Nat.shiftLeft_add_eq_or_of_lt this, Nat.shiftLeft_eq]

theorem formatXK_toNat (t x : Nibble) (kk : Byte) :
    (formatXK t x kk).toNat = t.toNat * 4096 + x.toNat * 256 + kk.toNat := by
  have h1 := kk.isLt
  have h2 := x.isLt
  rw [formatXK, BitVec.toNat_append, ← Nat.shiftLeft_add_eq_or_of_lt h1, Nat.shiftLeft_eq, BitVec.toNat_append,
    ← Nat.shiftLeft_add_eq_or_of_lt h2, Nat.shiftLeft_eq]
  omega

theorem formatXY_toNat (t x y n : Nibble) :
    (formatXY t x y n).toNat = t.toNat * 4096 + x.toNat * 256 + y.toNat * 16 + n.toNat := by
  have h1 := n.isLt
  have h2 := y.isLt
  have h3 := x.isLt
  rw [formatXY, BitVec.toNat_append, ← Nat.shiftLeft_add_eq_or_of_lt h1, Nat.shiftLeft_eq, BitVec.toNat_append,
    ← Nat.shiftLeft_add_eq_or_of_lt h2, Nat.shiftLeft_eq, BitVec.toNat_append,
    ← Nat.shiftLeft_add_eq_or_of_lt h3, Nat.shiftLeft_eq]
  omega

theorem Opcode.t_toNat (op : Word) : (Opcode.t op).toNat = op.toNat / 4096 % 16 := by
  simp [Opcode.t, BitVec.extractLsb'_toNat, Nat.shiftRight_eq_div_pow]

theorem Opcode.x_toNat (op : Word) : (Opcode.x op).toNat = op.toNat / 256 % 16 := by
  simp [Opcode.x, BitVec.extractLsb'_toNat, Nat.shiftRight_eq_div_pow]

theorem Opcode.y_toNat (op : Word) : (Opcode.y op).toNat = op.toNat / 16 % 16 := by
  simp [Opcode.y, BitVec.extractLsb'_toNat, Nat.shiftRight_eq_div_pow]

theorem Opcode.n_toNat (op : Word) : (Opcode.n op).toNat = op.toNat % 16 := by
  simp [Opcode.n, BitVec.extractLsb'_toNat]

theorem Opcode.kk_toNat (op : Word) : (Opcode.kk op).toNat = op.toNat % 256 := by
  simp [Opcode.kk, BitVec.extractLsb'_toNat]

theorem Opcode.nnn_toNat (op : Word) : (Opcode.nnn op).toNat = op.toNat % 4096 := by
  simp [Opcode.nnn, BitVec.extractLsb'_toNat]

/-! ### The fields of each format -/

section
variable (t x y n : Nibble) (kk : Byte) (nnn : Addr12)

theorem formatA_t : Opcode.t (formatA t nnn) = t := by
  apply BitVec.eq_of_toNat_eq; rw [Opcode.t_toNat, formatA_toNat]; omega

theorem formatA_nnn : Opcode.nnn (formatA t nnn) = nnn := by
  apply BitVec.eq_of_toNat_eq; rw [Opcode.nnn_toNat, formatA_toNat]; omega

theorem formatXK_t : Opcode.t (formatXK t x kk) = t := by
  apply BitVec.eq_of_toNat_eq; rw [Opcode.t_toNat, formatXK_toNat]; omega

theorem formatXK_x : Opcode.x (formatXK t x kk) = x := by
  apply BitVec.eq_of_toNat_eq; rw [Opcode.x_toNat, formatXK_toNat]; omega

theorem formatXK_kk : Opcode.kk (formatXK t x kk) = kk := by
  apply BitVec.eq_of_toNat_eq; rw [Opcode.kk_toNat, formatXK_toNat]; omega

theorem formatXY_t : Opcode.t (formatXY t x y n) = t := by
  apply BitVec.eq_of_toNat_eq; rw [Opcode.t_toNat, formatXY_toNat]; omega

theorem formatXY_x : Opcode.x (formatXY t x y n) = x := by
  apply BitVec.eq_of_toNat_eq; rw [Opcode.x_toNat, formatXY_toNat]; omega

theorem formatXY_y : Opcode.y (formatXY t x y n) = y := by
  apply BitVec.eq_of_toNat_eq; rw [Opcode.y_toNat, formatXY_toNat]; omega

theorem formatXY_n : Opcode.n (formatXY t x y n) = n := by
  apply BitVec.eq_of_toNat_eq; rw [Opcode.n_toNat, formatXY_toNat]; omega

end

/-! ### A word from its own fields -/

theorem formatA_of_fields (op : Word) : formatA (Opcode.t op) (Opcode.nnn op) = op := by
  apply BitVec.eq_of_toNat_eq; rw [formatA_toNat, Opcode.t_toNat, Opcode.nnn_toNat]; omega

theorem formatXK_of_fields (op : Word) : formatXK (Opcode.t op) (Opcode.x op) (Opcode.kk op) = op := by
  apply BitVec.eq_of_toNat_eq; rw [formatXK_toNat, Opcode.t_toNat, Opcode.x_toNat, Opcode.kk_toNat]; omega

theorem formatXY_of_fields (op : Word) : formatXY (Opcode.t op) (Opcode.x op) (Opcode.y op) (Opcode.n op) = op := by
  apply BitVec.eq_of_toNat_eq
  rw [formatXY_toNat, Opcode.t_toNat, Opcode.x_toNat, Opcode.y_toNat, Opcode.n_toNat]; omega

/-- A word laid out high byte first reads back as itself (R32). -/
theorem bigEndian_bytes (op : Word) : bigEndian (highByte op) (lowByte op) = op := by
  apply BitVec.eq_of_toNat_eq
  have h1 : (highByte op).toNat = op.toNat / 256 % 256 := by
    simp [highByte, BitVec.extractLsb'_toNat, Nat.shiftRight_eq_div_pow]
  have h2 : (lowByte op).toNat = op.toNat % 256 := by simp [lowByte, BitVec.extractLsb'_toNat]
  rw [bigEndian, BitVec.toNat_append, ← Nat.shiftLeft_add_eq_or_of_lt (lowByte op).isLt, Nat.shiftLeft_eq, h1, h2]
  omega

/-- The big-endian word as a number (R33). -/
theorem bigEndian_toNat (hi lo : Byte) : (bigEndian hi lo).toNat = hi.toNat * 256 + lo.toNat := by
  rw [bigEndian, BitVec.toNat_append, ← Nat.shiftLeft_add_eq_or_of_lt lo.isLt, Nat.shiftLeft_eq]

/-! ### The masks of the opcode table keep fields (R49, R50) -/

theorem formatA_getLsbD (t : Nibble) (a : Addr12) (i : Nat) :
    (formatA t a).getLsbD i = if i < 12 then a.getLsbD i else t.getLsbD (i - 12) := by
  rw [formatA, BitVec.getLsbD_append]

theorem formatXK_getLsbD (t x : Nibble) (k : Byte) (i : Nat) :
    (formatXK t x k).getLsbD i =
      if i < 8 then k.getLsbD i else if i - 8 < 4 then x.getLsbD (i - 8) else t.getLsbD (i - 8 - 4) := by
  rw [formatXK, BitVec.getLsbD_append, BitVec.getLsbD_append]

theorem formatXY_getLsbD (t x y n : Nibble) (i : Nat) :
    (formatXY t x y n).getLsbD i =
      if i < 4 then n.getLsbD i else if i - 4 < 4 then y.getLsbD (i - 4)
      else if i - 4 - 4 < 4 then x.getLsbD (i - 4 - 4) else t.getLsbD (i - 4 - 4 - 4) := by
  rw [formatXY, BitVec.getLsbD_append, BitVec.getLsbD_append, BitVec.getLsbD_append]

/-- A bit number of a word is one of sixteen. -/
theorem bit_cases (i : Nat) (h : i < 16) : i = 0 ∨ i = 1 ∨ i = 2 ∨ i = 3 ∨ i = 4 ∨ i = 5 ∨ i = 6 ∨ i = 7 ∨ i = 8 ∨
    i = 9 ∨ i = 10 ∨ i = 11 ∨ i = 12 ∨ i = 13 ∨ i = 14 ∨ i = 15 := by omega

/-- Mask F000 keeps `t`. -/
theorem mask_F000 (op : Word) : op &&& 0xF000#16 = formatA (Opcode.t op) 0#12 := by
  apply BitVec.eq_of_getLsbD_eq
  intro i hi
  rw [BitVec.getLsbD_and, formatA_getLsbD, Opcode.t, BitVec.getLsbD_extractLsb']
  rcases bit_cases i hi with rfl | rfl | rfl | rfl | rfl | rfl | rfl | rfl | rfl | rfl | rfl | rfl | rfl | rfl | rfl | rfl <;>
    simp

/-- Mask F00F keeps `t` and `n`. -/
theorem mask_F00F (op : Word) : op &&& 0xF00F#16 = formatXY (Opcode.t op) 0#4 0#4 (Opcode.n op) := by
  apply BitVec.eq_of_getLsbD_eq
  intro i hi
  rw [BitVec.getLsbD_and, formatXY_getLsbD, Opcode.t, BitVec.getLsbD_extractLsb', Opcode.n,
    BitVec.getLsbD_extractLsb']
  rcases bit_cases i hi with rfl | rfl | rfl | rfl | rfl | rfl | rfl | rfl | rfl | rfl | rfl | rfl | rfl | rfl | rfl | rfl <;>
    simp

/-- Mask F0FF keeps `t` and `kk`. -/
theorem mask_F0FF (op : Word) : op &&& 0xF0FF#16 = formatXK (Opcode.t op) 0#4 (Opcode.kk op) := by
  apply BitVec.eq_of_getLsbD_eq
  intro i hi
  rw [BitVec.getLsbD_and, formatXK_getLsbD, Opcode.t, BitVec.getLsbD_extractLsb', Opcode.kk,
    BitVec.getLsbD_extractLsb']
  rcases bit_cases i hi with rfl | rfl | rfl | rfl | rfl | rfl | rfl | rfl | rfl | rfl | rfl | rfl | rfl | rfl | rfl | rfl <;>
    simp

end Sys2Proof
end

