-- ==== Sys2Proof/Laws/State.lean ====
section
/-! SUPPORT. What each named update of State does to each field: one lemma per field per update, true by rfl, so that no later proof
unfolds a record update; and the two views of a register. -/

namespace Sys2Proof.Machine

variable (s : State)

/-! ### setReg -/

@[simp] theorem State.setReg_i (k : Nibble) (b : Byte) : (s.setReg k b).i = s.i := rfl
@[simp] theorem State.setReg_pc (k : Nibble) (b : Byte) : (s.setReg k b).pc = s.pc := rfl
@[simp] theorem State.setReg_sp (k : Nibble) (b : Byte) : (s.setReg k b).sp = s.sp := rfl
@[simp] theorem State.setReg_stack (k : Nibble) (b : Byte) : (s.setReg k b).stack = s.stack := rfl
@[simp] theorem State.setReg_mem (k : Nibble) (b : Byte) : (s.setReg k b).mem = s.mem := rfl
@[simp] theorem State.setReg_dt (k : Nibble) (b : Byte) : (s.setReg k b).dt = s.dt := rfl
@[simp] theorem State.setReg_st (k : Nibble) (b : Byte) : (s.setReg k b).st = s.st := rfl
@[simp] theorem State.setReg_fb (k : Nibble) (b : Byte) : (s.setReg k b).fb = s.fb := rfl
@[simp] theorem State.setReg_key (k : Nibble) (b : Byte) : (s.setReg k b).key = s.key := rfl
@[simp] theorem State.setReg_indexIncrement (k : Nibble) (b : Byte) : (s.setReg k b).indexIncrement = s.indexIncrement := rfl
@[simp] theorem State.setReg_draws (k : Nibble) (b : Byte) : (s.setReg k b).draws = s.draws := rfl

/-! ### setFlag -/

@[simp] theorem State.setFlag_i (b : Byte) : (s.setFlag b).i = s.i := rfl
@[simp] theorem State.setFlag_pc (b : Byte) : (s.setFlag b).pc = s.pc := rfl
@[simp] theorem State.setFlag_sp (b : Byte) : (s.setFlag b).sp = s.sp := rfl
@[simp] theorem State.setFlag_stack (b : Byte) : (s.setFlag b).stack = s.stack := rfl
@[simp] theorem State.setFlag_mem (b : Byte) : (s.setFlag b).mem = s.mem := rfl
@[simp] theorem State.setFlag_dt (b : Byte) : (s.setFlag b).dt = s.dt := rfl
@[simp] theorem State.setFlag_st (b : Byte) : (s.setFlag b).st = s.st := rfl
@[simp] theorem State.setFlag_fb (b : Byte) : (s.setFlag b).fb = s.fb := rfl
@[simp] theorem State.setFlag_key (b : Byte) : (s.setFlag b).key = s.key := rfl
@[simp] theorem State.setFlag_indexIncrement (b : Byte) : (s.setFlag b).indexIncrement = s.indexIncrement := rfl
@[simp] theorem State.setFlag_draws (b : Byte) : (s.setFlag b).draws = s.draws := rfl

/-! ### setResultThenFlag -/

@[simp] theorem State.setResultThenFlag_i (x : Nibble) (r f : Byte) : (s.setResultThenFlag x r f).i = s.i := rfl
@[simp] theorem State.setResultThenFlag_pc (x : Nibble) (r f : Byte) : (s.setResultThenFlag x r f).pc = s.pc := rfl
@[simp] theorem State.setResultThenFlag_sp (x : Nibble) (r f : Byte) : (s.setResultThenFlag x r f).sp = s.sp := rfl
@[simp] theorem State.setResultThenFlag_stack (x : Nibble) (r f : Byte) : (s.setResultThenFlag x r f).stack = s.stack := rfl
@[simp] theorem State.setResultThenFlag_mem (x : Nibble) (r f : Byte) : (s.setResultThenFlag x r f).mem = s.mem := rfl
@[simp] theorem State.setResultThenFlag_dt (x : Nibble) (r f : Byte) : (s.setResultThenFlag x r f).dt = s.dt := rfl
@[simp] theorem State.setResultThenFlag_st (x : Nibble) (r f : Byte) : (s.setResultThenFlag x r f).st = s.st := rfl
@[simp] theorem State.setResultThenFlag_fb (x : Nibble) (r f : Byte) : (s.setResultThenFlag x r f).fb = s.fb := rfl
@[simp] theorem State.setResultThenFlag_key (x : Nibble) (r f : Byte) : (s.setResultThenFlag x r f).key = s.key := rfl
@[simp] theorem State.setResultThenFlag_indexIncrement (x : Nibble) (r f : Byte) : (s.setResultThenFlag x r f).indexIncrement = s.indexIncrement := rfl
@[simp] theorem State.setResultThenFlag_draws (x : Nibble) (r f : Byte) : (s.setResultThenFlag x r f).draws = s.draws := rfl

/-! ### setI -/

@[simp] theorem State.setI_v (a : Word) : (s.setI a).v = s.v := rfl
@[simp] theorem State.setI_i (a : Word) : (s.setI a).i = a := rfl
@[simp] theorem State.setI_pc (a : Word) : (s.setI a).pc = s.pc := rfl
@[simp] theorem State.setI_sp (a : Word) : (s.setI a).sp = s.sp := rfl
@[simp] theorem State.setI_stack (a : Word) : (s.setI a).stack = s.stack := rfl
@[simp] theorem State.setI_mem (a : Word) : (s.setI a).mem = s.mem := rfl
@[simp] theorem State.setI_dt (a : Word) : (s.setI a).dt = s.dt := rfl
@[simp] theorem State.setI_st (a : Word) : (s.setI a).st = s.st := rfl
@[simp] theorem State.setI_fb (a : Word) : (s.setI a).fb = s.fb := rfl
@[simp] theorem State.setI_key (a : Word) : (s.setI a).key = s.key := rfl
@[simp] theorem State.setI_indexIncrement (a : Word) : (s.setI a).indexIncrement = s.indexIncrement := rfl
@[simp] theorem State.setI_draws (a : Word) : (s.setI a).draws = s.draws := rfl

/-! ### setDt -/

@[simp] theorem State.setDt_v (b : Byte) : (s.setDt b).v = s.v := rfl
@[simp] theorem State.setDt_i (b : Byte) : (s.setDt b).i = s.i := rfl
@[simp] theorem State.setDt_pc (b : Byte) : (s.setDt b).pc = s.pc := rfl
@[simp] theorem State.setDt_sp (b : Byte) : (s.setDt b).sp = s.sp := rfl
@[simp] theorem State.setDt_stack (b : Byte) : (s.setDt b).stack = s.stack := rfl
@[simp] theorem State.setDt_mem (b : Byte) : (s.setDt b).mem = s.mem := rfl
@[simp] theorem State.setDt_dt (b : Byte) : (s.setDt b).dt = b := rfl
@[simp] theorem State.setDt_st (b : Byte) : (s.setDt b).st = s.st := rfl
@[simp] theorem State.setDt_fb (b : Byte) : (s.setDt b).fb = s.fb := rfl
@[simp] theorem State.setDt_key (b : Byte) : (s.setDt b).key = s.key := rfl
@[simp] theorem State.setDt_indexIncrement (b : Byte) : (s.setDt b).indexIncrement = s.indexIncrement := rfl
@[simp] theorem State.setDt_draws (b : Byte) : (s.setDt b).draws = s.draws := rfl

/-! ### setSt -/

@[simp] theorem State.setSt_v (b : Byte) : (s.setSt b).v = s.v := rfl
@[simp] theorem State.setSt_i (b : Byte) : (s.setSt b).i = s.i := rfl
@[simp] theorem State.setSt_pc (b : Byte) : (s.setSt b).pc = s.pc := rfl
@[simp] theorem State.setSt_sp (b : Byte) : (s.setSt b).sp = s.sp := rfl
@[simp] theorem State.setSt_stack (b : Byte) : (s.setSt b).stack = s.stack := rfl
@[simp] theorem State.setSt_mem (b : Byte) : (s.setSt b).mem = s.mem := rfl
@[simp] theorem State.setSt_dt (b : Byte) : (s.setSt b).dt = s.dt := rfl
@[simp] theorem State.setSt_st (b : Byte) : (s.setSt b).st = b := rfl
@[simp] theorem State.setSt_fb (b : Byte) : (s.setSt b).fb = s.fb := rfl
@[simp] theorem State.setSt_key (b : Byte) : (s.setSt b).key = s.key := rfl
@[simp] theorem State.setSt_indexIncrement (b : Byte) : (s.setSt b).indexIncrement = s.indexIncrement := rfl
@[simp] theorem State.setSt_draws (b : Byte) : (s.setSt b).draws = s.draws := rfl

/-! ### setMem -/

@[simp] theorem State.setMem_v (m : Memory) : (s.setMem m).v = s.v := rfl
@[simp] theorem State.setMem_i (m : Memory) : (s.setMem m).i = s.i := rfl
@[simp] theorem State.setMem_pc (m : Memory) : (s.setMem m).pc = s.pc := rfl
@[simp] theorem State.setMem_sp (m : Memory) : (s.setMem m).sp = s.sp := rfl
@[simp] theorem State.setMem_stack (m : Memory) : (s.setMem m).stack = s.stack := rfl
@[simp] theorem State.setMem_mem (m : Memory) : (s.setMem m).mem = m := rfl
@[simp] theorem State.setMem_dt (m : Memory) : (s.setMem m).dt = s.dt := rfl
@[simp] theorem State.setMem_st (m : Memory) : (s.setMem m).st = s.st := rfl
@[simp] theorem State.setMem_fb (m : Memory) : (s.setMem m).fb = s.fb := rfl
@[simp] theorem State.setMem_key (m : Memory) : (s.setMem m).key = s.key := rfl
@[simp] theorem State.setMem_indexIncrement (m : Memory) : (s.setMem m).indexIncrement = s.indexIncrement := rfl
@[simp] theorem State.setMem_draws (m : Memory) : (s.setMem m).draws = s.draws := rfl

/-! ### setFb -/

@[simp] theorem State.setFb_v (f : Framebuffer) : (s.setFb f).v = s.v := rfl
@[simp] theorem State.setFb_i (f : Framebuffer) : (s.setFb f).i = s.i := rfl
@[simp] theorem State.setFb_pc (f : Framebuffer) : (s.setFb f).pc = s.pc := rfl
@[simp] theorem State.setFb_sp (f : Framebuffer) : (s.setFb f).sp = s.sp := rfl
@[simp] theorem State.setFb_stack (f : Framebuffer) : (s.setFb f).stack = s.stack := rfl
@[simp] theorem State.setFb_mem (f : Framebuffer) : (s.setFb f).mem = s.mem := rfl
@[simp] theorem State.setFb_dt (f : Framebuffer) : (s.setFb f).dt = s.dt := rfl
@[simp] theorem State.setFb_st (f : Framebuffer) : (s.setFb f).st = s.st := rfl
@[simp] theorem State.setFb_fb (f : Framebuffer) : (s.setFb f).fb = f := rfl
@[simp] theorem State.setFb_key (f : Framebuffer) : (s.setFb f).key = s.key := rfl
@[simp] theorem State.setFb_indexIncrement (f : Framebuffer) : (s.setFb f).indexIncrement = s.indexIncrement := rfl
@[simp] theorem State.setFb_draws (f : Framebuffer) : (s.setFb f).draws = s.draws := rfl

/-! ### countDraw -/

@[simp] theorem State.countDraw_v : (s.countDraw).v = s.v := rfl
@[simp] theorem State.countDraw_i : (s.countDraw).i = s.i := rfl
@[simp] theorem State.countDraw_pc : (s.countDraw).pc = s.pc := rfl
@[simp] theorem State.countDraw_sp : (s.countDraw).sp = s.sp := rfl
@[simp] theorem State.countDraw_stack : (s.countDraw).stack = s.stack := rfl
@[simp] theorem State.countDraw_mem : (s.countDraw).mem = s.mem := rfl
@[simp] theorem State.countDraw_dt : (s.countDraw).dt = s.dt := rfl
@[simp] theorem State.countDraw_st : (s.countDraw).st = s.st := rfl
@[simp] theorem State.countDraw_fb : (s.countDraw).fb = s.fb := rfl
@[simp] theorem State.countDraw_key : (s.countDraw).key = s.key := rfl
@[simp] theorem State.countDraw_indexIncrement : (s.countDraw).indexIncrement = s.indexIncrement := rfl
@[simp] theorem State.countDraw_draws : (s.countDraw).draws = s.draws + 1 := rfl

/-! ### setPc -/

@[simp] theorem State.setPc_v (a : Word) : (s.setPc a).v = s.v := rfl
@[simp] theorem State.setPc_i (a : Word) : (s.setPc a).i = s.i := rfl
@[simp] theorem State.setPc_pc (a : Word) : (s.setPc a).pc = a := rfl
@[simp] theorem State.setPc_sp (a : Word) : (s.setPc a).sp = s.sp := rfl
@[simp] theorem State.setPc_stack (a : Word) : (s.setPc a).stack = s.stack := rfl
@[simp] theorem State.setPc_mem (a : Word) : (s.setPc a).mem = s.mem := rfl
@[simp] theorem State.setPc_dt (a : Word) : (s.setPc a).dt = s.dt := rfl
@[simp] theorem State.setPc_st (a : Word) : (s.setPc a).st = s.st := rfl
@[simp] theorem State.setPc_fb (a : Word) : (s.setPc a).fb = s.fb := rfl
@[simp] theorem State.setPc_key (a : Word) : (s.setPc a).key = s.key := rfl
@[simp] theorem State.setPc_indexIncrement (a : Word) : (s.setPc a).indexIncrement = s.indexIncrement := rfl
@[simp] theorem State.setPc_draws (a : Word) : (s.setPc a).draws = s.draws := rfl

/-! ### advancePc -/

@[simp] theorem State.advancePc_v : (s.advancePc).v = s.v := rfl
@[simp] theorem State.advancePc_i : (s.advancePc).i = s.i := rfl
@[simp] theorem State.advancePc_pc : (s.advancePc).pc = s.pc + 2#16 := rfl
@[simp] theorem State.advancePc_sp : (s.advancePc).sp = s.sp := rfl
@[simp] theorem State.advancePc_stack : (s.advancePc).stack = s.stack := rfl
@[simp] theorem State.advancePc_mem : (s.advancePc).mem = s.mem := rfl
@[simp] theorem State.advancePc_dt : (s.advancePc).dt = s.dt := rfl
@[simp] theorem State.advancePc_st : (s.advancePc).st = s.st := rfl
@[simp] theorem State.advancePc_fb : (s.advancePc).fb = s.fb := rfl
@[simp] theorem State.advancePc_key : (s.advancePc).key = s.key := rfl
@[simp] theorem State.advancePc_indexIncrement : (s.advancePc).indexIncrement = s.indexIncrement := rfl
@[simp] theorem State.advancePc_draws : (s.advancePc).draws = s.draws := rfl

/-! ### rewindPc -/

@[simp] theorem State.rewindPc_v : (s.rewindPc).v = s.v := rfl
@[simp] theorem State.rewindPc_i : (s.rewindPc).i = s.i := rfl
@[simp] theorem State.rewindPc_pc : (s.rewindPc).pc = s.pc - 2#16 := rfl
@[simp] theorem State.rewindPc_sp : (s.rewindPc).sp = s.sp := rfl
@[simp] theorem State.rewindPc_stack : (s.rewindPc).stack = s.stack := rfl
@[simp] theorem State.rewindPc_mem : (s.rewindPc).mem = s.mem := rfl
@[simp] theorem State.rewindPc_dt : (s.rewindPc).dt = s.dt := rfl
@[simp] theorem State.rewindPc_st : (s.rewindPc).st = s.st := rfl
@[simp] theorem State.rewindPc_fb : (s.rewindPc).fb = s.fb := rfl
@[simp] theorem State.rewindPc_key : (s.rewindPc).key = s.key := rfl
@[simp] theorem State.rewindPc_indexIncrement : (s.rewindPc).indexIncrement = s.indexIncrement := rfl
@[simp] theorem State.rewindPc_draws : (s.rewindPc).draws = s.draws := rfl

/-! ### setKey and tick -/

@[simp] theorem setKey_v (k : Nibble) (p : Bool) : (setKey k p s).v = s.v := rfl
@[simp] theorem setKey_i (k : Nibble) (p : Bool) : (setKey k p s).i = s.i := rfl
@[simp] theorem setKey_pc (k : Nibble) (p : Bool) : (setKey k p s).pc = s.pc := rfl
@[simp] theorem setKey_sp (k : Nibble) (p : Bool) : (setKey k p s).sp = s.sp := rfl
@[simp] theorem setKey_stack (k : Nibble) (p : Bool) : (setKey k p s).stack = s.stack := rfl
@[simp] theorem setKey_mem (k : Nibble) (p : Bool) : (setKey k p s).mem = s.mem := rfl
@[simp] theorem setKey_dt (k : Nibble) (p : Bool) : (setKey k p s).dt = s.dt := rfl
@[simp] theorem setKey_st (k : Nibble) (p : Bool) : (setKey k p s).st = s.st := rfl
@[simp] theorem setKey_fb (k : Nibble) (p : Bool) : (setKey k p s).fb = s.fb := rfl
@[simp] theorem setKey_indexIncrement (k : Nibble) (p : Bool) : (setKey k p s).indexIncrement = s.indexIncrement := rfl
@[simp] theorem setKey_draws (k : Nibble) (p : Bool) : (setKey k p s).draws = s.draws := rfl
@[simp] theorem tick_v : (tick s).v = s.v := rfl
@[simp] theorem tick_i : (tick s).i = s.i := rfl
@[simp] theorem tick_pc : (tick s).pc = s.pc := rfl
@[simp] theorem tick_sp : (tick s).sp = s.sp := rfl
@[simp] theorem tick_stack : (tick s).stack = s.stack := rfl
@[simp] theorem tick_mem : (tick s).mem = s.mem := rfl
@[simp] theorem tick_dt : (tick s).dt = countDown s.dt := rfl
@[simp] theorem tick_st : (tick s).st = countDown s.st := rfl
@[simp] theorem tick_fb : (tick s).fb = s.fb := rfl
@[simp] theorem tick_key : (tick s).key = s.key := rfl
@[simp] theorem tick_indexIncrement : (tick s).indexIncrement = s.indexIncrement := rfl
@[simp] theorem tick_draws : (tick s).draws = s.draws := rfl

/-! ### skipIf, which writes pc alone -/

@[simp] theorem State.skipIf_v (c : Bool) : (s.skipIf c).v = s.v := by cases c <;> rfl
@[simp] theorem State.skipIf_i (c : Bool) : (s.skipIf c).i = s.i := by cases c <;> rfl
@[simp] theorem State.skipIf_pc (c : Bool) : (s.skipIf c).pc = if c then s.pc + 2#16 else s.pc := by
  cases c <;> rfl
@[simp] theorem State.skipIf_sp (c : Bool) : (s.skipIf c).sp = s.sp := by cases c <;> rfl
@[simp] theorem State.skipIf_stack (c : Bool) : (s.skipIf c).stack = s.stack := by cases c <;> rfl
@[simp] theorem State.skipIf_mem (c : Bool) : (s.skipIf c).mem = s.mem := by cases c <;> rfl
@[simp] theorem State.skipIf_dt (c : Bool) : (s.skipIf c).dt = s.dt := by cases c <;> rfl
@[simp] theorem State.skipIf_st (c : Bool) : (s.skipIf c).st = s.st := by cases c <;> rfl
@[simp] theorem State.skipIf_fb (c : Bool) : (s.skipIf c).fb = s.fb := by cases c <;> rfl
@[simp] theorem State.skipIf_key (c : Bool) : (s.skipIf c).key = s.key := by cases c <;> rfl
@[simp] theorem State.skipIf_indexIncrement (c : Bool) : (s.skipIf c).indexIncrement = s.indexIncrement := by cases c <;> rfl
@[simp] theorem State.skipIf_draws (c : Bool) : (s.skipIf c).draws = s.draws := by cases c <;> rfl

/-! ### Registers through their accessor -/

/-- Only the register file decides what a register reads. -/
theorem State.reg_eq_of_v_eq (t : State) (h : t.v = s.v) (k : Nibble) : t.reg k = s.reg k := by
  simp [State.reg, h]

/-- A register reads what was written to it, and what it held otherwise. -/
theorem State.reg_setReg (k j : Nibble) (b : Byte) : (s.setReg k b).reg j = if j = k then b else s.reg j := by
  by_cases h : j = k
  · subst h; simp [State.reg, State.setReg]
  · have hn : k.toNat ≠ j.toNat := fun e => h (BitVec.eq_of_toNat_eq e).symm
    simp [State.reg, State.setReg, h, hn]

@[simp] theorem State.reg_setReg_same (k : Nibble) (b : Byte) : (s.setReg k b).reg k = b := by
  simp [State.reg_setReg]

@[simp] theorem State.reg_setReg_ne (k j : Nibble) (b : Byte) (h : j ≠ k) : (s.setReg k b).reg j = s.reg j := by
  simp [State.reg_setReg, h]

/-- VF is register 15, and a flag write touches no other register. -/
theorem State.reg_setFlag (j : Nibble) (b : Byte) : (s.setFlag b).reg j = if j = vf then b else s.reg j :=
  State.reg_setReg s vf j b

/-- Result, then flag: VF ends as the flag whatever the destination (R81 a). -/
theorem State.reg_setResultThenFlag (x j : Nibble) (r f : Byte) :
    (s.setResultThenFlag x r f).reg j = if j = vf then f else if j = x then r else s.reg j := by
  simp [State.setResultThenFlag, State.reg_setFlag, State.reg_setReg]

/-- A key reads what SetKey put there, and what it held otherwise. -/
theorem keyAt_setKey (k j : Nibble) (p : Bool) : (setKey k p s).keyAt j = if j = k then p else s.keyAt j := by
  by_cases h : j = k
  · subst h; simp [State.keyAt, setKey]
  · have hn : k.toNat ≠ j.toNat := fun e => h (BitVec.eq_of_toNat_eq e).symm
    simp [State.keyAt, setKey, h, hn]

@[simp] theorem State.reg_setI (a : Word) (k : Nibble) : (s.setI a).reg k = s.reg k := rfl
@[simp] theorem State.reg_setDt (b : Byte) (k : Nibble) : (s.setDt b).reg k = s.reg k := rfl
@[simp] theorem State.reg_setSt (b : Byte) (k : Nibble) : (s.setSt b).reg k = s.reg k := rfl
@[simp] theorem State.reg_setMem (m : Memory) (k : Nibble) : (s.setMem m).reg k = s.reg k := rfl
@[simp] theorem State.reg_setFb (f : Framebuffer) (k : Nibble) : (s.setFb f).reg k = s.reg k := rfl
@[simp] theorem State.reg_countDraw (k : Nibble) : (s.countDraw).reg k = s.reg k := rfl
@[simp] theorem State.reg_setPc (a : Word) (k : Nibble) : (s.setPc a).reg k = s.reg k := rfl
@[simp] theorem State.reg_advancePc (k : Nibble) : (s.advancePc).reg k = s.reg k := rfl
@[simp] theorem State.reg_rewindPc (k : Nibble) : (s.rewindPc).reg k = s.reg k := rfl
@[simp] theorem State.reg_skipIf (c : Bool) (k : Nibble) : (s.skipIf c).reg k = s.reg k := by cases c <;> rfl
@[simp] theorem State.keyAt_setReg (j : Nibble) (b : Byte) (k : Nibble) : (s.setReg j b).keyAt k = s.keyAt k := rfl
@[simp] theorem State.keyAt_setPc (a : Word) (k : Nibble) : (s.setPc a).keyAt k = s.keyAt k := rfl
@[simp] theorem State.keyAt_advancePc  (k : Nibble) : (s.advancePc).keyAt k = s.keyAt k := rfl

end Sys2Proof.Machine
end

