-- ==== Sys2Proof/Laws/Memory.lean ====
section
/-! SUPPORT. Memory: a read after a write, and that every operation keeps the canonical form (assumption 5). -/

namespace Sys2Proof.Machine

@[simp] theorem Memory.read_nil (a : Nat) : Memory.read [] a = Config.unlistedByte := rfl

/-- A write leaves every other address as it read before; the canonical form is not needed for that. -/
theorem Memory.read_write_ne (m : Memory) (a b : Nat) (v : Byte) (h : b ≠ a) :
    (m.write a v).read b = m.read b := by
  induction m with
  | nil => by_cases hv : v = Config.unlistedByte <;> simp [Memory.write, Memory.read, hv, h]
  | cons e rest ih =>
    obtain ⟨c, w⟩ := e
    simp only [Memory.write]
    split
    · by_cases hv : v = Config.unlistedByte <;> simp [Memory.read, hv, h]
    · split
      · rename_i hc; subst hc
        by_cases hv : v = Config.unlistedByte <;> simp [Memory.read, hv, h]
      · simp [Memory.read, ih]

/-- Below the first address of a canonical list nothing is listed. -/
theorem Memory.read_below (m : Memory) (lo a : Nat) (hw : m.wfFrom lo = true) (h : a < lo) :
    m.read a = Config.unlistedByte := by
  induction m generalizing lo with
  | nil => rfl
  | cons e rest ih =>
    obtain ⟨c, w⟩ := e
    simp only [Memory.wfFrom, Bool.and_eq_true, decide_eq_true_eq] at hw
    obtain ⟨⟨⟨h1, _⟩, _⟩, h4⟩ := hw
    have hne : a ≠ c := by omega
    simp only [Memory.read, hne, if_false]
    exact ih (c + 1) h4 (by omega)

/-- On a canonical list a written address reads the byte written. -/
theorem Memory.read_write_same (m : Memory) (lo a : Nat) (v : Byte) (hw : m.wfFrom lo = true) :
    (m.write a v).read a = v := by
  induction m generalizing lo with
  | nil => by_cases hv : v = Config.unlistedByte <;> simp [Memory.write, Memory.read, hv]
  | cons e rest ih =>
    obtain ⟨c, w⟩ := e
    simp only [Memory.wfFrom, Bool.and_eq_true, decide_eq_true_eq] at hw
    obtain ⟨⟨⟨h1, _⟩, _⟩, h4⟩ := hw
    simp only [Memory.write]
    split
    · rename_i hlt
      by_cases hv : v = Config.unlistedByte
      · have hne : a ≠ c := by omega
        simp only [hv, if_true, Memory.read, hne, if_false]
        exact Memory.read_below rest (c + 1) a h4 (by omega)
      · simp [Memory.read, hv]
    · split
      · rename_i hc; subst hc
        by_cases hv : v = Config.unlistedByte
        · simp only [hv, if_true]
          exact Memory.read_below rest (a + 1) a h4 (by omega)
        · simp [Memory.read, hv]
      · rename_i hne
        simp only [Memory.read, hne, if_false]
        exact ih (c + 1) h4

/-- What one write does, in one lemma. -/
theorem Memory.read_write (m : Memory) (a b : Nat) (v : Byte) (hw : m.wf = true) :
    (m.write a v).read b = if b = a then v else m.read b := by
  by_cases h : b = a
  · subst h; simpa using Memory.read_write_same m 0 b v hw
  · simp [h, Memory.read_write_ne m a b v h]

theorem Memory.wfFrom_mono (m : Memory) (lo lo' : Nat) (h : lo' ≤ lo) (hw : m.wfFrom lo = true) :
    m.wfFrom lo' = true := by
  cases m with
  | nil => rfl
  | cons e rest =>
    simp only [Memory.wfFrom, Bool.and_eq_true, decide_eq_true_eq] at hw ⊢
    exact ⟨⟨⟨by omega, hw.1.1.2⟩, hw.1.2⟩, hw.2⟩

theorem Memory.wfFrom_write (m : Memory) (lo a : Nat) (v : Byte) (hlo : lo ≤ a) (ha : a < Config.memSize)
    (hw : m.wfFrom lo = true) : (m.write a v).wfFrom lo = true := by
  induction m generalizing lo with
  | nil => by_cases hv : v = Config.unlistedByte <;> simp [Memory.write, Memory.wfFrom, hv, hlo, ha]
  | cons e rest ih =>
    obtain ⟨c, w⟩ := e
    have hw' := hw
    simp only [Memory.wfFrom, Bool.and_eq_true, decide_eq_true_eq] at hw'
    obtain ⟨⟨⟨h1, h2⟩, h3⟩, h4⟩ := hw'
    simp only [Memory.write]
    split
    · rename_i hlt
      by_cases hv : v = Config.unlistedByte
      · simpa [hv] using hw
      · simp only [hv, if_false, Memory.wfFrom, Bool.and_eq_true, decide_eq_true_eq]
        exact ⟨⟨⟨hlo, ha⟩, hv⟩, ⟨⟨by omega, h2⟩, h3⟩, h4⟩
    · split
      · rename_i hc; subst hc
        by_cases hv : v = Config.unlistedByte
        · simpa [hv] using Memory.wfFrom_mono rest (a + 1) lo (by omega) h4
        · simp only [hv, if_false, Memory.wfFrom, Bool.and_eq_true, decide_eq_true_eq]
          exact ⟨⟨⟨hlo, ha⟩, hv⟩, h4⟩
      · simp only [Memory.wfFrom, Bool.and_eq_true, decide_eq_true_eq]
        exact ⟨⟨⟨h1, h2⟩, h3⟩, ih (c + 1) (by omega) h4⟩

/-- A write inside memory keeps the canonical form. -/
theorem Memory.wf_write (m : Memory) (a : Nat) (v : Byte) (ha : a < Config.memSize) (hw : m.wf = true) :
    (m.write a v).wf = true := Memory.wfFrom_write m 0 a v (Nat.zero_le a) ha hw

/-- Storing a run of bytes inside memory keeps the canonical form. -/
theorem Memory.wf_writeBytes (bytes : List Byte) (m : Memory) (a : Nat) (ha : a + bytes.length ≤ Config.memSize)
    (hw : m.wf = true) : (m.writeBytes a bytes).wf = true := by
  induction bytes generalizing m a with
  | nil => exact hw
  | cons b rest ih =>
    simp only [List.length_cons] at ha
    exact ih (m.write a b) (a + 1) (by omega) (Memory.wf_write m a b (by omega) hw)

/-- Storing a run of bytes leaves every address outside the run as it read before. -/
theorem Memory.read_writeBytes_outside (bytes : List Byte) (m : Memory) (a b : Nat)
    (h : b < a ∨ a + bytes.length ≤ b) : (m.writeBytes a bytes).read b = m.read b := by
  induction bytes generalizing m a with
  | nil => rfl
  | cons c rest ih =>
    simp only [List.length_cons] at h
    simp only [Memory.writeBytes]
    rw [ih (m.write a c) (a + 1) (by omega), Memory.read_write_ne m a b c (by omega)]

/-- After storing a run of bytes on canonical memory, its k-th address reads its k-th byte. -/
theorem Memory.read_writeBytes_inside (bytes : List Byte) (m : Memory) (a k : Nat) (hk : k < bytes.length)
    (ha : a + bytes.length ≤ Config.memSize) (hw : m.wf = true) :
    (m.writeBytes a bytes).read (a + k) = bytes[k] := by
  induction bytes generalizing m a k with
  | nil => simp at hk
  | cons c rest ih =>
    simp only [List.length_cons] at ha hk
    simp only [Memory.writeBytes]
    cases k with
    | zero =>
      have hout := Memory.read_writeBytes_outside rest (m.write a c) (a + 1) a (by omega)
      simp only [Nat.add_zero, List.getElem_cons_zero, hout]
      exact Memory.read_write_same m 0 a c hw
    | succ j =>
      have := ih (m.write a c) (a + 1) j (by omega) (by omega) (Memory.wf_write m a c (by omega) hw)
      simpa [Nat.add_assoc, Nat.add_comm 1 j] using this

@[simp] theorem Memory.length_readBytes (m : Memory) (a len : Nat) : (m.readBytes a len).length = len := by
  simp [Memory.readBytes]

@[simp] theorem Memory.getElem_readBytes (m : Memory) (a len k : Nat) (h : k < (m.readBytes a len).length) :
    (m.readBytes a len)[k] = m.read (a + k) := by
  simp [Memory.readBytes]

/-- Reset memory is in the canonical form. -/
theorem reset_mem_wf : State.reset.mem.wf = true := rfl

end Sys2Proof.Machine
end

