-- ==== Sys2Proof/Laws/Ops.lean ====
section
/-! SUPPORT. One lemma for each shared operation, which says once everything it can do: the stack, the framebuffer, the bounds
check, the register load, the key scan, the fault, the cycle. -/

namespace Sys2Proof.Machine

/-! ### Stack (R17, R21) -/

/-- A push stores at the next free slot and counts it, or there is none when 16 are held. -/
theorem State.push_spec (s : State) (a : Word) :
    (∃ h : s.sp.val < 16,
        s.push a = some { s with stack := s.stack.set s.sp.val a h, sp := ⟨s.sp.val + 1, by omega⟩ }) ∨
      (s.sp.val = 16 ∧ s.push a = none) := by
  by_cases h : s.sp.val < 16
  · exact .inl ⟨h, by simp [State.push, h]⟩
  · exact .inr ⟨by omega, by simp [State.push, h]⟩

/-- A pop answers the top entry and uncounts it, or there is none on an empty stack; the slots keep their bits. -/
theorem State.pop_spec (s : State) :
    (∃ _h : s.sp.val ≠ 0, s.pop = some (s.stack[s.sp.val - 1]'(by omega),
        { s with sp := ⟨s.sp.val - 1, by omega⟩ })) ∨
      (s.sp.val = 0 ∧ s.pop = none) := by
  by_cases h : s.sp.val = 0
  · exact .inr ⟨h, by simp [State.pop, h]⟩
  · exact .inl ⟨h, by simp [State.pop, h]⟩

/-! ### Framebuffer (R22) -/

@[simp] theorem Framebuffer.cell_blank (row : Fin 32) (col : Fin 64) : Framebuffer.blank.cell row col = false := by
  simp [Framebuffer.blank, Framebuffer.cell]

/-- Flipping a cell changes that cell alone. -/
theorem Framebuffer.cell_flip (f : Framebuffer) (row r : Fin 32) (col c : Fin 64) :
    (f.flip row col).cell r c = if r = row ∧ c = col then !f.cell r c else f.cell r c := by
  by_cases hr : r = row
  · subst hr
    by_cases hc : c = col
    · subst hc; simp [Framebuffer.flip, Framebuffer.cell]
    · have : col.val ≠ c.val := fun e => hc (Fin.ext e).symm
      simp [Framebuffer.flip, Framebuffer.cell, hc, this]
  · have : row.val ≠ r.val := fun e => hr (Fin.ext e).symm
    simp [Framebuffer.flip, Framebuffer.cell, hr, this]

/-- Two framebuffers that agree on every cell are one. -/
theorem Framebuffer.ext_cell (f g : Framebuffer) (h : ∀ row col, f.cell row col = g.cell row col) : f = g := by
  apply Vector.ext
  intro r hr
  apply Vector.ext
  intro c hc
  exact h ⟨r, hr⟩ ⟨c, hc⟩

/-! ### Operands -/

/-- The bounds check in the spec's words: it fails exactly when len > 0 and I + len − 1 > 0xFFF (R36). -/
theorem State.dataInMemory_iff (s : State) (len : Nat) :
    s.dataInMemory len = true ↔ ¬(len > 0 ∧ s.i.toNat + len - 1 > 0xFFF) := by
  simp only [State.dataInMemory, rangeInMemory, Bool.or_eq_true, decide_eq_true_eq]
  omega

@[simp] theorem zextAddr_toNat (a : Addr12) : (zextAddr a).toNat = a.toNat := by
  simp [zextAddr, BitVec.toNat_setWidth]; omega

@[simp] theorem zextByte_toNat (b : Byte) : (zextByte b).toNat = b.toNat := by
  simp [zextByte, BitVec.toNat_setWidth]; omega

/-- The register load writes the first `n` registers from memory and no other. -/
theorem getElem_loadRegs (m : Memory) (a n k : Nat) (v : Vector Byte 16) (hk : k < 16) :
    (loadRegs m a n v)[k] = if k < n then m.read (a + k) else v[k] := by
  induction n with
  | zero => simp [loadRegs]
  | succ j ih =>
    simp only [loadRegs, Vector.getElem_setIfInBounds, ih]
    split
    · rename_i h; subst h; simp
    · split <;> split <;> first | rfl | omega

@[simp] theorem State.length_regsUpTo (s : State) (x : Nibble) : (s.regsUpTo x).length = x.toNat + 1 := by
  have := x.isLt
  simp [State.regsUpTo, regCount]; omega

/-- The k-th byte of a register dump is register k. -/
theorem State.getElem_regsUpTo (s : State) (x : Nibble) (k : Nat) (h : k < (s.regsUpTo x).length) :
    (s.regsUpTo x)[k] = s.reg (BitVec.ofNat 4 k) := by
  have hx := x.isLt
  have hk : k < 16 := by simp at h; omega
  simp only [State.regsUpTo, State.reg, List.getElem_take, Vector.getElem_toList, BitVec.toNat_ofNat,
    Nat.mod_eq_of_lt (show k < 2 ^ 4 by omega)]

@[simp] theorem length_bcdDigits (b : Byte) : (bcdDigits b).length = 3 := rfl

/-- The key scan finds the lowest pressed key, or finds that none is pressed. -/
theorem lowestKeyFrom_spec (s : State) (fuel k : Nat) (h : k + fuel ≤ 16) :
    (∃ j : Nibble, lowestKeyFrom s k fuel = some j ∧ s.keyAt j = true ∧ k ≤ j.toNat ∧ j.toNat < k + fuel ∧
        ∀ q : Nibble, k ≤ q.toNat → q.toNat < j.toNat → s.keyAt q = false) ∨
      (lowestKeyFrom s k fuel = none ∧ ∀ q : Nibble, k ≤ q.toNat → q.toNat < k + fuel → s.keyAt q = false) := by
  induction fuel generalizing k with
  | zero => exact .inr ⟨rfl, fun q h1 h2 => by omega⟩
  | succ n ih =>
    have hk : (BitVec.ofNat 4 k).toNat = k := by simp [BitVec.toNat_ofNat]; omega
    have hq : ∀ q : Nibble, q.toNat = k → q = BitVec.ofNat 4 k := fun q e => BitVec.eq_of_toNat_eq (by omega)
    by_cases hp : s.keyAt (BitVec.ofNat 4 k) = true
    · exact .inl ⟨_, by simp [lowestKeyFrom, hp], hp, by omega, by omega, fun q h1 h2 => by omega⟩
    · have hp' : s.keyAt (BitVec.ofNat 4 k) = false := by simpa using hp
      have hlow : ∀ q : Nibble, q.toNat = k → s.keyAt q = false := fun q e => by rw [hq q e]; exact hp'
      rcases ih (k + 1) (by omega) with ⟨j, h1, h2, h3, h4, h5⟩ | ⟨h1, h2⟩
      · refine .inl ⟨j, by simp [lowestKeyFrom, hp', h1], h2, by omega, by omega, fun q q1 q2 => ?_⟩
        by_cases e : q.toNat = k
        · exact hlow q e
        · exact h5 q (by omega) q2
      · refine .inr ⟨by simp [lowestKeyFrom, hp', h1], fun q q1 q2 => ?_⟩
        by_cases e : q.toNat = k
        · exact hlow q e
        · exact h2 q (by omega) (by omega)

/-- `LD Vx, K`'s scan: the lowest pressed key, or none pressed (R92). -/
theorem State.lowestKey_spec (s : State) :
    (∃ j : Nibble, s.lowestKey = some j ∧ s.keyAt j = true ∧ ∀ q : Nibble, q.toNat < j.toNat → s.keyAt q = false) ∨
      (s.lowestKey = none ∧ ∀ q : Nibble, s.keyAt q = false) := by
  rcases lowestKeyFrom_spec s 16 0 (by omega) with ⟨j, h1, h2, _, _, h5⟩ | ⟨h1, h2⟩
  · exact .inl ⟨j, h1, h2, fun q hq => h5 q (by omega) hq⟩
  · exact .inr ⟨h1, fun q => h2 q (by omega) (by have := q.isLt; omega)⟩

/-! ### Cycle (R110) -/

/-- Everything a cycle can do: fault at fetch, fault at decode, or run the decoded instruction with pc advanced. -/
theorem cycle_spec (s : State) :
    (s.fetchable = false ∧ cycle s = .fault (.memoryFault s.pc none)) ∨
      (s.fetchable = true ∧ (∃ e, decode s.opcodeAtPc = .error e) ∧
        cycle s = .fault (.unknownOpcode s.pc s.opcodeAtPc)) ∨
      (s.fetchable = true ∧ ∃ i, decode s.opcodeAtPc = .ok i ∧ cycle s = exec i s.advancePc) := by
  unfold cycle
  by_cases hf : s.fetchable = true
  · right
    rw [if_pos hf]
    cases hd : decode s.opcodeAtPc with
    | error e => exact .inl ⟨hf, ⟨e, rfl⟩, rfl⟩
    | ok i => exact .inr ⟨hf, i, rfl, rfl⟩
  · exact .inl ⟨by simpa using hf, by rw [if_neg hf]⟩

end Sys2Proof.Machine
end

