-- ==== Sys2Proof/Laws/Host.lean ====
section
/-! SUPPORT. Schedules of host operations (spec/49_host_operations.md R116) taken apart where one follows another, and what it means to
stand at a self-jump (spec/70_reset_and_hazards.md R150). -/

namespace Sys2Proof.Machine

@[simp] theorem hostRun_nil (s : State) : hostRun [] s = s := rfl

@[simp] theorem hostRun_cons (op : HostOp) (rest : List HostOp) (s : State) :
    hostRun (op :: rest) s = hostRun rest (hostApply op s).1 := rfl

theorem hostRun_append (ops more : List HostOp) (s : State) : hostRun (ops ++ more) s = hostRun more (hostRun ops s) := by
  induction ops generalizing s with
  | nil => rfl
  | cons op rest ih => exact ih _

@[simp] theorem runFaulted_nil (s : State) : runFaulted [] s = false := rfl

@[simp] theorem runFaulted_cons (op : HostOp) (rest : List HostOp) (s : State) :
    runFaulted (op :: rest) s = ((hostApply op s).2.isStepFault || runFaulted rest (hostApply op s).1) := rfl

/-- A schedule in two parts faults when either part does. -/
theorem runFaulted_append (ops more : List HostOp) (s : State) :
    runFaulted (ops ++ more) s = (runFaulted ops s || runFaulted more (hostRun ops s)) := by
  induction ops generalizing s with
  | nil => simp
  | cons op rest ih => simp [ih, Bool.or_assoc]

/-- `hostApply` of a Step, by what the Step answers. -/
theorem hostApply_step_next {s t : State} (h : step s = .next t) : hostApply .step s = (t, .ok) := by
  simp only [hostApply, h]

theorem hostApply_step_fault {s : State} {f : Fault} (h : step s = .fault f) :
    hostApply .step s = (stateAfterStep s, .stepFault f) := by
  simp only [hostApply, h]

/-- At a self-jump, pc is fetchable and the word there is a `JP` to pc. -/
theorem State.atSelfJump_iff (s : State) :
    s.atSelfJump = true ↔ s.fetchable = true ∧ s.opcodeAtPc = encode (.jp (s.pc.setWidth 12)) := by
  simp [State.atSelfJump]

/-- Standing at a self-jump depends on pc and memory alone. -/
theorem State.atSelfJump_congr {s t : State} (hpc : t.pc = s.pc) (hmem : t.mem = s.mem) : t.atSelfJump = s.atSelfJump := by
  cases s; cases t; cases hpc; cases hmem; rfl

/-- What "the program has ended" means: no Step faulted, and the machine stands at a self-jump. -/
theorem programEnded_iff (ops : List HostOp) (s : State) :
    programEnded ops s = true ↔ runFaulted ops s = false ∧ (hostRun ops s).atSelfJump = true := by
  simp [programEnded, EndCondition.reached]

end Sys2Proof.Machine
end

