-- ==== Sys2Proof/Laws/PerInstr.lean ====
section
/-! SUPPORT. Per instruction: it is well-formed, and its encoding matches its own row of the opcode table, whose fields give it
back (spec/30_encoding.md R48, R49, R50). -/

namespace Sys2Proof.Laws

/-- The word an instruction encodes to matches its row of R50, and that row's fields are its operands. -/
def EncodingRow.Statement (i : Instr) : Prop :=
  i.wellFormed = true ∧ ∃ r : OpcodeRow, opcodeTable[rowOf i]? = some r ∧ r.accepts (encode i) = true ∧
    r.operation (encode i) = i

theorem EncodingRow.cls : EncodingRow.Statement .cls := by
  exact ⟨rfl, _, rfl, by decide, rfl⟩

theorem EncodingRow.ret : EncodingRow.Statement .ret := by
  exact ⟨rfl, _, rfl, by decide, rfl⟩

theorem EncodingRow.jp (nnn : Addr12) : EncodingRow.Statement (.jp nnn) := by
  have hnnn := nnn.isLt
  refine ⟨by simp [Instr.wellFormed]; omega, _, rfl, ?_, ?_⟩
  · simp only [OpcodeRow.accepts, encode, mask_F000, formatA_t]; decide
  · simp [encode, formatA_nnn]

theorem EncodingRow.call (nnn : Addr12) : EncodingRow.Statement (.call nnn) := by
  have hnnn := nnn.isLt
  refine ⟨by simp [Instr.wellFormed]; omega, _, rfl, ?_, ?_⟩
  · simp only [OpcodeRow.accepts, encode, mask_F000, formatA_t]; decide
  · simp [encode, formatA_nnn]

theorem EncodingRow.seImm (x : Nibble) (kk : Byte) : EncodingRow.Statement (.seImm x kk) := by
  have hx := x.isLt
  have hkk := kk.isLt
  refine ⟨by simp [Instr.wellFormed]; omega, _, rfl, ?_, ?_⟩
  · simp only [OpcodeRow.accepts, encode, mask_F000, formatXK_t]; decide
  · simp [encode, formatXK_x, formatXK_kk]

theorem EncodingRow.sneImm (x : Nibble) (kk : Byte) : EncodingRow.Statement (.sneImm x kk) := by
  have hx := x.isLt
  have hkk := kk.isLt
  refine ⟨by simp [Instr.wellFormed]; omega, _, rfl, ?_, ?_⟩
  · simp only [OpcodeRow.accepts, encode, mask_F000, formatXK_t]; decide
  · simp [encode, formatXK_x, formatXK_kk]

theorem EncodingRow.seReg (x y : Nibble) : EncodingRow.Statement (.seReg x y) := by
  have hx := x.isLt
  have hy := y.isLt
  refine ⟨by simp [Instr.wellFormed]; omega, _, rfl, ?_, ?_⟩
  · simp only [OpcodeRow.accepts, encode, mask_F00F, formatXY_t, formatXY_n]; decide
  · simp [encode, formatXY_x, formatXY_y]

theorem EncodingRow.ldImm (x : Nibble) (kk : Byte) : EncodingRow.Statement (.ldImm x kk) := by
  have hx := x.isLt
  have hkk := kk.isLt
  refine ⟨by simp [Instr.wellFormed]; omega, _, rfl, ?_, ?_⟩
  · simp only [OpcodeRow.accepts, encode, mask_F000, formatXK_t]; decide
  · simp [encode, formatXK_x, formatXK_kk]

theorem EncodingRow.addImm (x : Nibble) (kk : Byte) : EncodingRow.Statement (.addImm x kk) := by
  have hx := x.isLt
  have hkk := kk.isLt
  refine ⟨by simp [Instr.wellFormed]; omega, _, rfl, ?_, ?_⟩
  · simp only [OpcodeRow.accepts, encode, mask_F000, formatXK_t]; decide
  · simp [encode, formatXK_x, formatXK_kk]

theorem EncodingRow.ldReg (x y : Nibble) : EncodingRow.Statement (.ldReg x y) := by
  have hx := x.isLt
  have hy := y.isLt
  refine ⟨by simp [Instr.wellFormed]; omega, _, rfl, ?_, ?_⟩
  · simp only [OpcodeRow.accepts, encode, mask_F00F, formatXY_t, formatXY_n]; decide
  · simp [encode, formatXY_x, formatXY_y]

theorem EncodingRow.orReg (x y : Nibble) : EncodingRow.Statement (.orReg x y) := by
  have hx := x.isLt
  have hy := y.isLt
  refine ⟨by simp [Instr.wellFormed]; omega, _, rfl, ?_, ?_⟩
  · simp only [OpcodeRow.accepts, encode, mask_F00F, formatXY_t, formatXY_n]; decide
  · simp [encode, formatXY_x, formatXY_y]

theorem EncodingRow.andReg (x y : Nibble) : EncodingRow.Statement (.andReg x y) := by
  have hx := x.isLt
  have hy := y.isLt
  refine ⟨by simp [Instr.wellFormed]; omega, _, rfl, ?_, ?_⟩
  · simp only [OpcodeRow.accepts, encode, mask_F00F, formatXY_t, formatXY_n]; decide
  · simp [encode, formatXY_x, formatXY_y]

theorem EncodingRow.xorReg (x y : Nibble) : EncodingRow.Statement (.xorReg x y) := by
  have hx := x.isLt
  have hy := y.isLt
  refine ⟨by simp [Instr.wellFormed]; omega, _, rfl, ?_, ?_⟩
  · simp only [OpcodeRow.accepts, encode, mask_F00F, formatXY_t, formatXY_n]; decide
  · simp [encode, formatXY_x, formatXY_y]

theorem EncodingRow.addReg (x y : Nibble) : EncodingRow.Statement (.addReg x y) := by
  have hx := x.isLt
  have hy := y.isLt
  refine ⟨by simp [Instr.wellFormed]; omega, _, rfl, ?_, ?_⟩
  · simp only [OpcodeRow.accepts, encode, mask_F00F, formatXY_t, formatXY_n]; decide
  · simp [encode, formatXY_x, formatXY_y]

theorem EncodingRow.subReg (x y : Nibble) : EncodingRow.Statement (.subReg x y) := by
  have hx := x.isLt
  have hy := y.isLt
  refine ⟨by simp [Instr.wellFormed]; omega, _, rfl, ?_, ?_⟩
  · simp only [OpcodeRow.accepts, encode, mask_F00F, formatXY_t, formatXY_n]; decide
  · simp [encode, formatXY_x, formatXY_y]

theorem EncodingRow.shrReg (x y : Nibble) : EncodingRow.Statement (.shrReg x y) := by
  have hx := x.isLt
  have hy := y.isLt
  refine ⟨by simp [Instr.wellFormed]; omega, _, rfl, ?_, ?_⟩
  · simp only [OpcodeRow.accepts, encode, mask_F00F, formatXY_t, formatXY_n]; decide
  · simp [encode, formatXY_x, formatXY_y]

theorem EncodingRow.subnReg (x y : Nibble) : EncodingRow.Statement (.subnReg x y) := by
  have hx := x.isLt
  have hy := y.isLt
  refine ⟨by simp [Instr.wellFormed]; omega, _, rfl, ?_, ?_⟩
  · simp only [OpcodeRow.accepts, encode, mask_F00F, formatXY_t, formatXY_n]; decide
  · simp [encode, formatXY_x, formatXY_y]

theorem EncodingRow.shlReg (x y : Nibble) : EncodingRow.Statement (.shlReg x y) := by
  have hx := x.isLt
  have hy := y.isLt
  refine ⟨by simp [Instr.wellFormed]; omega, _, rfl, ?_, ?_⟩
  · simp only [OpcodeRow.accepts, encode, mask_F00F, formatXY_t, formatXY_n]; decide
  · simp [encode, formatXY_x, formatXY_y]

theorem EncodingRow.sneReg (x y : Nibble) : EncodingRow.Statement (.sneReg x y) := by
  have hx := x.isLt
  have hy := y.isLt
  refine ⟨by simp [Instr.wellFormed]; omega, _, rfl, ?_, ?_⟩
  · simp only [OpcodeRow.accepts, encode, mask_F00F, formatXY_t, formatXY_n]; decide
  · simp [encode, formatXY_x, formatXY_y]

theorem EncodingRow.ldI (nnn : Addr12) : EncodingRow.Statement (.ldI nnn) := by
  have hnnn := nnn.isLt
  refine ⟨by simp [Instr.wellFormed]; omega, _, rfl, ?_, ?_⟩
  · simp only [OpcodeRow.accepts, encode, mask_F000, formatA_t]; decide
  · simp [encode, formatA_nnn]

theorem EncodingRow.jpV0 (nnn : Addr12) : EncodingRow.Statement (.jpV0 nnn) := by
  have hnnn := nnn.isLt
  refine ⟨by simp [Instr.wellFormed]; omega, _, rfl, ?_, ?_⟩
  · simp only [OpcodeRow.accepts, encode, mask_F000, formatA_t]; decide
  · simp [encode, formatA_nnn]

theorem EncodingRow.rnd (x : Nibble) (kk : Byte) : EncodingRow.Statement (.rnd x kk) := by
  have hx := x.isLt
  have hkk := kk.isLt
  refine ⟨by simp [Instr.wellFormed]; omega, _, rfl, ?_, ?_⟩
  · simp only [OpcodeRow.accepts, encode, mask_F000, formatXK_t]; decide
  · simp [encode, formatXK_x, formatXK_kk]

theorem EncodingRow.drw (x y n : Nibble) : EncodingRow.Statement (.drw x y n) := by
  have hx := x.isLt
  have hy := y.isLt
  have hn := n.isLt
  refine ⟨by simp [Instr.wellFormed]; omega, _, rfl, ?_, ?_⟩
  · simp only [OpcodeRow.accepts, encode, mask_F000, formatXY_t]; decide
  · simp [encode, formatXY_x, formatXY_y, formatXY_n]

theorem EncodingRow.skp (x : Nibble) : EncodingRow.Statement (.skp x) := by
  have hx := x.isLt
  refine ⟨by simp [Instr.wellFormed]; omega, _, rfl, ?_, ?_⟩
  · simp only [OpcodeRow.accepts, encode, mask_F0FF, formatXK_t, formatXK_kk]; decide
  · simp [encode, formatXK_x]

theorem EncodingRow.sknp (x : Nibble) : EncodingRow.Statement (.sknp x) := by
  have hx := x.isLt
  refine ⟨by simp [Instr.wellFormed]; omega, _, rfl, ?_, ?_⟩
  · simp only [OpcodeRow.accepts, encode, mask_F0FF, formatXK_t, formatXK_kk]; decide
  · simp [encode, formatXK_x]

theorem EncodingRow.ldVxDt (x : Nibble) : EncodingRow.Statement (.ldVxDt x) := by
  have hx := x.isLt
  refine ⟨by simp [Instr.wellFormed]; omega, _, rfl, ?_, ?_⟩
  · simp only [OpcodeRow.accepts, encode, mask_F0FF, formatXK_t, formatXK_kk]; decide
  · simp [encode, formatXK_x]

theorem EncodingRow.ldVxK (x : Nibble) : EncodingRow.Statement (.ldVxK x) := by
  have hx := x.isLt
  refine ⟨by simp [Instr.wellFormed]; omega, _, rfl, ?_, ?_⟩
  · simp only [OpcodeRow.accepts, encode, mask_F0FF, formatXK_t, formatXK_kk]; decide
  · simp [encode, formatXK_x]

theorem EncodingRow.ldDtVx (x : Nibble) : EncodingRow.Statement (.ldDtVx x) := by
  have hx := x.isLt
  refine ⟨by simp [Instr.wellFormed]; omega, _, rfl, ?_, ?_⟩
  · simp only [OpcodeRow.accepts, encode, mask_F0FF, formatXK_t, formatXK_kk]; decide
  · simp [encode, formatXK_x]

theorem EncodingRow.ldStVx (x : Nibble) : EncodingRow.Statement (.ldStVx x) := by
  have hx := x.isLt
  refine ⟨by simp [Instr.wellFormed]; omega, _, rfl, ?_, ?_⟩
  · simp only [OpcodeRow.accepts, encode, mask_F0FF, formatXK_t, formatXK_kk]; decide
  · simp [encode, formatXK_x]

theorem EncodingRow.addI (x : Nibble) : EncodingRow.Statement (.addI x) := by
  have hx := x.isLt
  refine ⟨by simp [Instr.wellFormed]; omega, _, rfl, ?_, ?_⟩
  · simp only [OpcodeRow.accepts, encode, mask_F0FF, formatXK_t, formatXK_kk]; decide
  · simp [encode, formatXK_x]

theorem EncodingRow.ldF (x : Nibble) : EncodingRow.Statement (.ldF x) := by
  have hx := x.isLt
  refine ⟨by simp [Instr.wellFormed]; omega, _, rfl, ?_, ?_⟩
  · simp only [OpcodeRow.accepts, encode, mask_F0FF, formatXK_t, formatXK_kk]; decide
  · simp [encode, formatXK_x]

theorem EncodingRow.ldB (x : Nibble) : EncodingRow.Statement (.ldB x) := by
  have hx := x.isLt
  refine ⟨by simp [Instr.wellFormed]; omega, _, rfl, ?_, ?_⟩
  · simp only [OpcodeRow.accepts, encode, mask_F0FF, formatXK_t, formatXK_kk]; decide
  · simp [encode, formatXK_x]

theorem EncodingRow.ldMemVx (x : Nibble) : EncodingRow.Statement (.ldMemVx x) := by
  have hx := x.isLt
  refine ⟨by simp [Instr.wellFormed]; omega, _, rfl, ?_, ?_⟩
  · simp only [OpcodeRow.accepts, encode, mask_F0FF, formatXK_t, formatXK_kk]; decide
  · simp [encode, formatXK_x]

theorem EncodingRow.ldVxMem (x : Nibble) : EncodingRow.Statement (.ldVxMem x) := by
  have hx := x.isLt
  refine ⟨by simp [Instr.wellFormed]; omega, _, rfl, ?_, ?_⟩
  · simp only [OpcodeRow.accepts, encode, mask_F0FF, formatXK_t, formatXK_kk]; decide
  · simp [encode, formatXK_x]

end Sys2Proof.Laws
end

