-- ==== Sys2Proof/Tests/Slice0.lean ====
section
/-! SUPPORT. Tests of the model, each on one step or one operation; expected results are those of spec/95_test_vectors.md (cited by
vector) or written out from the rule cited. The last section shows, for each obligation with hypotheses, a state and operands that
meet them together. -/

namespace Sys2Proof.Tests

open Sys2Proof.Machine

/-- A part of the state a meaning or a Step leaves, none where it answers no next state. -/
def after {α : Type} (r : Result) (f : State → α) : Option α :=
  match r with
  | .next t => some (f t)
  | .fault _ | .refused _ => none

/-- The fault a meaning or a Step answers. -/
def faultOf (r : Result) : Option Fault :=
  match r with
  | .fault f => some f
  | .next _ | .refused _ => none

/-- Reset with two registers set. -/
def withRegs (x : Nibble) (a : Byte) (y : Nibble) (b : Byte) : State := (State.reset.setReg y b).setReg x a

/-- Reset with I and some memory bytes from I upward set. -/
def withMem (i : Nat) (bytes : List Byte) : State :=
  (State.reset.setI (BitVec.ofNat 16 i)).setMem (State.reset.mem.writeBytes i bytes)

/-- Reset with one opcode placed at an address and pc there. -/
def withOpcode (a : Nat) (op : Word) : State := placeOpcode (State.reset.setPc (BitVec.ofNat 16 a)) op

/-! ### Well-formedness: an ill-formed term for each check -/

theorem test_rom_too_long : romFits (List.replicate 3585 0x00#8) = false := by
  rw [romFits, List.length_replicate]; decide
theorem test_rom_longest : romFits (List.replicate 3584 0x00#8) = true := by
  rw [romFits, List.length_replicate]; decide
theorem test_font_too_long : fontFits (List.replicate 513 0x00#8) = false := by
  rw [fontFits, List.length_replicate]; decide
theorem test_memory_unsorted : Memory.wf [(0x201, 0x01#8), (0x200, 0x01#8)] = false := by decide
theorem test_memory_repeated : Memory.wf [(0x200, 0x01#8), (0x200, 0x02#8)] = false := by decide
theorem test_memory_zero_entry : Memory.wf [(0x200, 0x00#8)] = false := by decide
theorem test_memory_outside : Memory.wf [(0x1000, 0x01#8)] = false := by decide
theorem test_write_zero_removes : Memory.write [(0x200, 0x01#8)] 0x200 0x00#8 = [] := by decide
theorem test_operands_in_range : (Instr.drw 0xF#4 0xF#4 0xF#4).wellFormed = true := by decide

/-! ### Decoding: each row's word written out bit by bit from R50, with the fields of 95_test_vectors 2.1 -/

theorem test_decode_cls : decode 0b0000000011100000#16 = .ok .cls := by decide
theorem test_decode_ret : decode 0b0000000011101110#16 = .ok .ret := by decide
theorem test_decode_jp : decode 0b0001101010111100#16 = .ok (.jp 0xABC#12) := by decide
theorem test_decode_call : decode 0b0010101010111100#16 = .ok (.call 0xABC#12) := by decide
theorem test_decode_seImm : decode 0b0011101001111111#16 = .ok (.seImm 0xA#4 0x7F#8) := by decide
theorem test_decode_sneImm : decode 0b0100101001111111#16 = .ok (.sneImm 0xA#4 0x7F#8) := by decide
theorem test_decode_seReg : decode 0b0101101010110000#16 = .ok (.seReg 0xA#4 0xB#4) := by decide
theorem test_decode_ldImm : decode 0b0110101001111111#16 = .ok (.ldImm 0xA#4 0x7F#8) := by decide
theorem test_decode_addImm : decode 0b0111101001111111#16 = .ok (.addImm 0xA#4 0x7F#8) := by decide
theorem test_decode_ldReg : decode 0b1000101010110000#16 = .ok (.ldReg 0xA#4 0xB#4) := by decide
theorem test_decode_orReg : decode 0b1000101010110001#16 = .ok (.orReg 0xA#4 0xB#4) := by decide
theorem test_decode_andReg : decode 0b1000101010110010#16 = .ok (.andReg 0xA#4 0xB#4) := by decide
theorem test_decode_xorReg : decode 0b1000101010110011#16 = .ok (.xorReg 0xA#4 0xB#4) := by decide
theorem test_decode_addReg : decode 0b1000101010110100#16 = .ok (.addReg 0xA#4 0xB#4) := by decide
theorem test_decode_subReg : decode 0b1000101010110101#16 = .ok (.subReg 0xA#4 0xB#4) := by decide
theorem test_decode_shrReg : decode 0b1000101010110110#16 = .ok (.shrReg 0xA#4 0xB#4) := by decide
theorem test_decode_subnReg : decode 0b1000101010110111#16 = .ok (.subnReg 0xA#4 0xB#4) := by decide
theorem test_decode_shlReg : decode 0b1000101010111110#16 = .ok (.shlReg 0xA#4 0xB#4) := by decide
theorem test_decode_sneReg : decode 0b1001101010110000#16 = .ok (.sneReg 0xA#4 0xB#4) := by decide
theorem test_decode_ldI : decode 0b1010101010111100#16 = .ok (.ldI 0xABC#12) := by decide
theorem test_decode_jpV0 : decode 0b1011101010111100#16 = .ok (.jpV0 0xABC#12) := by decide
theorem test_decode_rnd : decode 0b1100101001111111#16 = .ok (.rnd 0xA#4 0x7F#8) := by decide
theorem test_decode_drw : decode 0b1101101010111111#16 = .ok (.drw 0xA#4 0xB#4 0xF#4) := by decide
theorem test_decode_drw_no_rows : decode 0b1101101010110000#16 = .ok (.drw 0xA#4 0xB#4 0x0#4) := by decide
theorem test_decode_skp : decode 0b1110101010011110#16 = .ok (.skp 0xA#4) := by decide
theorem test_decode_sknp : decode 0b1110101010100001#16 = .ok (.sknp 0xA#4) := by decide
theorem test_decode_ldVxDt : decode 0b1111101000000111#16 = .ok (.ldVxDt 0xA#4) := by decide
theorem test_decode_ldVxK : decode 0b1111101000001010#16 = .ok (.ldVxK 0xA#4) := by decide
theorem test_decode_ldDtVx : decode 0b1111101000010101#16 = .ok (.ldDtVx 0xA#4) := by decide
theorem test_decode_ldStVx : decode 0b1111101000011000#16 = .ok (.ldStVx 0xA#4) := by decide
theorem test_decode_addI : decode 0b1111101000011110#16 = .ok (.addI 0xA#4) := by decide
theorem test_decode_ldF : decode 0b1111101000101001#16 = .ok (.ldF 0xA#4) := by decide
theorem test_decode_ldB : decode 0b1111101000110011#16 = .ok (.ldB 0xA#4) := by decide
theorem test_decode_ldMemVx : decode 0b1111101001010101#16 = .ok (.ldMemVx 0xA#4) := by decide
theorem test_decode_ldVxMem : decode 0b1111101001100101#16 = .ok (.ldVxMem 0xA#4) := by decide
/-- Vectors of 2.1 that are UnknownOpcode. -/
theorem test_decode_illegal :
    ([0x0000#16, 0x00E1#16, 0x00EF#16, 0x01E0#16, 0x5AB1#16, 0x8AB8#16, 0x8ABD#16, 0x8ABF#16, 0x9AB5#16, 0xEA9F#16,
      0xEA00#16, 0xFA00#16, 0xFA30#16, 0xFA56#16, 0xFAFF#16].all
        (fun op => decide (decode op = .error (.unknownOpcode op)))) = true := by decide
theorem test_decode_bytes_big_endian : decodeBytes [0x61#8, 0x05#8, 0xAA#8] = .ok (.ldImm 0x1#4 0x05#8, [0xAA#8]) := by decide
theorem test_decode_bytes_truncated : decodeBytes [0x61#8] = .error .truncated := by decide
theorem test_decode_table_word : decodeTableWord 16 0x8ABE = some (.shlReg 0xA#4 0xB#4) := by decide

/-! ### Flow (vectors F1 to F18) -/

theorem test_cls : after (exec .cls { State.reset with fb := Vector.replicate 32 (Vector.replicate 64 true) })
    (fun t => (t.fb.cell 0 0, t.fb.cell 31 63, t.v)) = some (false, false, State.reset.v) := by decide
theorem test_ret_empty : faultOf (step (withOpcode 0x200 0x00EE#16)) = some (.stackUnderflow 0x200#16 0x00EE#16) := by
  decide
theorem test_ret_full : after (exec .ret { State.reset with sp := 16, stack := State.reset.stack.set 15 0x0ABC#16 })
    (fun t => (t.sp, t.pc, t.stack[15])) = some (15, 0x0ABC#16, 0x0ABC#16) := by decide
theorem test_jp : after (step (withOpcode 0x200 0x1201#16)) (fun t => t.pc) = some 0x0201#16 := by decide
theorem test_call_last_slot : after (step { withOpcode 0x300 0x2400#16 with sp := 15 })
    (fun t => (t.stack[15], t.sp, t.pc)) = some (0x0302#16, 16, 0x0400#16) := by decide
theorem test_call_full : faultOf (step { withOpcode 0x300 0x2400#16 with sp := 16 }) =
    some (.stackOverflow 0x300#16 0x2400#16) := by decide
theorem test_seImm_taken : after (step (withOpcode 0xFFE 0x3300#16)) (fun t => t.pc) = some 0x1002#16 := by decide
theorem test_seImm_not : after (exec (.seImm 0x3#4 0x00#8) (withRegs 0x3#4 0x01#8 0x0#4 0x00#8)) (fun t => t.pc) =
    some 0x0200#16 := by decide
theorem test_sneImm_taken : after (exec (.sneImm 0x3#4 0x00#8) (withRegs 0x3#4 0x01#8 0x0#4 0x00#8)) (fun t => t.pc) =
    some 0x0202#16 := by decide
theorem test_seReg_not : after (exec (.seReg 0x1#4 0x2#4) (withRegs 0x1#4 0x01#8 0x2#4 0x02#8)) (fun t => t.pc) =
    some 0x0200#16 := by decide
theorem test_sneReg_taken : after (exec (.sneReg 0x1#4 0x2#4) (withRegs 0x1#4 0x01#8 0x2#4 0x02#8)) (fun t => t.pc) =
    some 0x0202#16 := by decide
theorem test_sneReg_same : after (exec (.sneReg 0x3#4 0x3#4) State.reset) (fun t => t.pc) = some 0x0200#16 := by decide
theorem test_jpV0 : after (exec (.jpV0 0xFFF#12) (withRegs 0x0#4 0xFF#8 0x1#4 0x00#8)) (fun t => t.pc) =
    some 0x10FE#16 := by decide

/-! ### Loads, arithmetic, logic, shifts (vectors S4 to S8, A1 to A32) -/

theorem test_ldImm : after (exec (.ldImm 0xF#4 0xAB#8) State.reset) (fun t => t.reg vf) = some 0xAB#8 := by decide
theorem test_addImm : after (exec (.addImm 0x2#4 0xFF#8) (withRegs 0x2#4 0xFF#8 0xF#4 0x77#8))
    (fun t => (t.reg 0x2#4, t.reg vf)) = some (0xFE#8, 0x77#8) := by decide
theorem test_ldReg : after (exec (.ldReg 0x3#4 0x4#4) (withRegs 0x3#4 0x00#8 0x4#4 0x99#8)) (fun t => t.reg 0x3#4) =
    some 0x99#8 := by decide
theorem test_orReg_vf_source : after (exec (.orReg 0x1#4 0xF#4) (withRegs 0x1#4 0x0F#8 0xF#4 0x01#8))
    (fun t => (t.reg 0x1#4, t.reg vf)) = some (0x0F#8, 0x00#8) := by decide
theorem test_orReg_vf_dest : after (exec (.orReg 0xF#4 0x1#4) (withRegs 0xF#4 0x01#8 0x1#4 0xF0#8)) (fun t => t.reg vf) =
    some 0x00#8 := by decide
theorem test_andReg : after (exec (.andReg 0x1#4 0x2#4) (withRegs 0x1#4 0xF0#8 0x2#4 0x3C#8))
    (fun t => (t.reg 0x1#4, t.reg vf)) = some (0x30#8, 0x00#8) := by decide
theorem test_xorReg : after (exec (.xorReg 0x1#4 0x2#4) (withRegs 0x1#4 0xF0#8 0x2#4 0x3C#8))
    (fun t => (t.reg 0x1#4, t.reg vf)) = some (0xCC#8, 0x00#8) := by decide
theorem test_addReg_carry : after (exec (.addReg 0x1#4 0x2#4) (withRegs 0x1#4 0xFF#8 0x2#4 0x01#8))
    (fun t => (t.reg 0x1#4, t.reg vf)) = some (0x00#8, 0x01#8) := by decide
theorem test_addReg_vf_dest : after (exec (.addReg 0xF#4 0x1#4) (withRegs 0xF#4 0xFF#8 0x1#4 0x01#8)) (fun t => t.reg vf) =
    some 0x01#8 := by decide
theorem test_subReg_borrow : after (exec (.subReg 0x1#4 0x2#4) (withRegs 0x1#4 0x03#8 0x2#4 0x05#8))
    (fun t => (t.reg 0x1#4, t.reg vf)) = some (0xFE#8, 0x00#8) := by decide
theorem test_subReg_equal : after (exec (.subReg 0x1#4 0x2#4) (withRegs 0x1#4 0x07#8 0x2#4 0x07#8))
    (fun t => (t.reg 0x1#4, t.reg vf)) = some (0x00#8, 0x01#8) := by decide
theorem test_subnReg : after (exec (.subnReg 0x1#4 0x2#4) (withRegs 0x1#4 0x03#8 0x2#4 0x05#8))
    (fun t => (t.reg 0x1#4, t.reg vf)) = some (0x02#8, 0x01#8) := by decide
theorem test_shrReg : after (exec (.shrReg 0x1#4 0x2#4) (withRegs 0x1#4 0xFF#8 0x2#4 0x12#8))
    (fun t => (t.reg 0x1#4, t.reg vf, t.reg 0x2#4)) = some (0x7F#8, 0x01#8, 0x12#8) := by decide
theorem test_shrReg_vf : after (exec (.shrReg 0xF#4 0x0#4) (withRegs 0xF#4 0x03#8 0x1#4 0x00#8)) (fun t => t.reg vf) =
    some 0x00#8 := by decide
theorem test_shlReg : after (exec (.shlReg 0x1#4 0x2#4) (withRegs 0x1#4 0xFF#8 0x2#4 0x12#8))
    (fun t => (t.reg 0x1#4, t.reg vf, t.reg 0x2#4)) = some (0xFE#8, 0x01#8, 0x12#8) := by decide
theorem test_shlReg_vf : after (exec (.shlReg 0xF#4 0x0#4) (withRegs 0xF#4 0x80#8 0x1#4 0x00#8)) (fun t => t.reg vf) =
    some 0x02#8 := by decide

/-! ### Random and draw (vectors X1 to X16) -/

theorem test_rnd_mask : (rndWith 0xB7#8 0x3#4 0x0F#8 State.reset).reg 0x3#4 = 0x07#8 := by decide
/-- X5, X6 and X16 in one: the first row wraps at the right edge, the second at the bottom, and the column is VF's old value. -/
theorem test_drw_wraps_from_vf_column :
    after (exec (.drw 0xF#4 0x1#4 0x2#4) (((withMem 0x300 [0xFF#8, 0x80#8]).setReg 0xF#4 60#8).setReg 0x1#4 31#8))
      (fun t => (t.fb.cell 31 63, t.fb.cell 31 3, t.fb.cell 31 4, t.fb.cell 0 60, t.fb.cell 0 61, t.reg vf)) =
      some (true, true, false, true, false, 0x00#8) := by decide
theorem test_drw_collision :
    after (exec (.drw 0x0#4 0x1#4 0x1#4) ((withMem 0x300 [0xC0#8]).setFb (State.reset.fb.flip 0 1)))
      (fun t => (t.fb.cell 0 0, t.fb.cell 0 1, t.reg vf)) = some (true, false, 0x01#8) := by decide

/-! ### Keys and timers (vectors K1 to K16) -/

theorem test_skp_pressed : after (exec (.skp 0x2#4) (setKey 0xA#4 true (withRegs 0x2#4 0x0A#8 0x0#4 0x00#8))) (fun t => t.pc) =
    some 0x0202#16 := by decide
theorem test_skp_above_15 : after (exec (.skp 0x2#4) (setKey 0xA#4 true (withRegs 0x2#4 0x1A#8 0x0#4 0x00#8))) (fun t => t.pc) =
    some 0x0200#16 := by decide
theorem test_sknp_above_15 : after (exec (.sknp 0x2#4) { withRegs 0x2#4 0xFF#8 0x0#4 0x00#8 with key := Vector.replicate 16 true })
    (fun t => t.pc) = some 0x0202#16 := by decide
theorem test_sknp_pressed : after (exec (.sknp 0x2#4) (setKey 0xA#4 true (withRegs 0x2#4 0x0A#8 0x0#4 0x00#8))) (fun t => t.pc) =
    some 0x0200#16 := by decide
theorem test_ldVxK_waits : after (step (withOpcode 0x200 0xF50A#16)) (fun t => t) = some (withOpcode 0x200 0xF50A#16) := by
  decide
theorem test_awaiting_key : (withOpcode 0x200 0xF50A#16).awaitingKey = true ∧
    (setKey 0x3#4 true (withOpcode 0x200 0xF50A#16)).awaitingKey = false := by decide
theorem test_ldVxK_lowest : after (step (setKey 0x3#4 true (setKey 0x7#4 true (withOpcode 0x200 0xF50A#16))))
    (fun t => (t.reg 0x5#4, t.pc)) = some (0x03#8, 0x0202#16) := by decide
theorem test_ldVxDt : after (exec (.ldVxDt 0x3#4) (State.reset.setDt 0x2C#8)) (fun t => (t.reg 0x3#4, t.dt)) =
    some (0x2C#8, 0x2C#8) := by decide
theorem test_ldDtVx : after (exec (.ldDtVx 0x3#4) (withRegs 0x3#4 0xFF#8 0x0#4 0x00#8)) (fun t => (t.dt, t.st)) =
    some (0xFF#8, 0x00#8) := by decide
theorem test_ldStVx : after (exec (.ldStVx 0x3#4) (withRegs 0x3#4 0x05#8 0x0#4 0x00#8)) (fun t => (t.dt, t.st)) =
    some (0x00#8, 0x05#8) := by decide

/-! ### Index register and memory (vectors M1 to M21) -/

theorem test_ldI : after (exec (.ldI 0xFFF#12) State.reset) (fun t => t.i) = some 0x0FFF#16 := by decide
theorem test_addI_wraps : after (exec (.addI 0x1#4) ((withRegs 0x1#4 0x02#8 0xF#4 0x05#8).setI 0xFFFF#16))
    (fun t => (t.i, t.reg vf)) = some (0x0001#16, 0x05#8) := by decide
theorem test_ldF_whole_byte : after (exec (.ldF 0x4#4) (withRegs 0x4#4 0xFF#8 0x0#4 0x00#8)) (fun t => t.i) =
    some 0x04FB#16 := by decide
theorem test_ldB : after (exec (.ldB 0x7#4) ((withRegs 0x7#4 109#8 0x0#4 0x00#8).setI 0xFFD#16))
    (fun t => (t.mem.read 0xFFD, t.mem.read 0xFFE, t.mem.read 0xFFF, t.i)) = some (1#8, 0#8, 9#8, 0xFFD#16) := by decide
theorem test_ldB_range : faultOf (exec (.ldB 0x7#4) (State.reset.setI 0xFFE#16)) =
    some (.memoryFault 0x1FE#16 (some 0xF733#16)) := by decide
theorem test_ldMemVx : after (exec (.ldMemVx 0x0#4) ((withRegs 0x0#4 0xAB#8 0x1#4 0x22#8).setI 0xFFF#16))
    (fun t => (t.mem, t.i)) = some ([(0xFFF, 0xAB#8)], 0x1000#16) := by decide
theorem test_ldMemVx_strap_off :
    after (exec (.ldMemVx 0x1#4) { (withRegs 0x0#4 0x11#8 0x1#4 0x22#8).setI 0x400#16 with indexIncrement := false })
      (fun t => (t.mem, t.i)) = some ([(0x400, 0x11#8), (0x401, 0x22#8)], 0x0400#16) := by decide
theorem test_ldVxMem : after (exec (.ldVxMem 0x2#4) (withMem 0x400 [0xAA#8, 0xBB#8, 0xCC#8, 0xDD#8]))
    (fun t => (t.reg 0x0#4, t.reg 0x2#4, t.reg 0x3#4, t.i)) = some (0xAA#8, 0xCC#8, 0x00#8, 0x0403#16) := by decide
theorem test_ldVxMem_no_wrap : faultOf (exec (.ldVxMem 0x0#4) (State.reset.setI 0xFFFF#16)) =
    some (.memoryFault 0x1FE#16 (some 0xF065#16)) := by decide

/-! ### Fetch, faults, host operations (vectors E1 to E10, K13, K14, S11) -/

theorem test_step_ld : after (step (withOpcode 0x200 0x6105#16)) (fun t => (t.reg 0x1#4, t.pc)) = some (0x05#8, 0x0202#16) := by
  decide
theorem test_step_top : after (step (withOpcode 0xFFE 0x6001#16)) (fun t => (t.reg 0x0#4, t.pc)) = some (0x01#8, 0x1000#16) := by
  decide
theorem test_step_odd_pc : after (step (withOpcode 0x201 0x6105#16)) (fun t => (t.reg 0x1#4, t.pc)) = some (0x05#8, 0x0203#16) := by
  decide
theorem test_step_fetch_fault : faultOf (step (State.reset.setPc 0xFFF#16)) = some (.memoryFault 0x0FFF#16 none) := by decide
theorem test_step_unknown : faultOf (step (withOpcode 0x200 0x5AB1#16)) = some (.unknownOpcode 0x200#16 0x5AB1#16) := by decide
theorem test_state_after_unknown : stateAfterStep (withOpcode 0x200 0x5AB1#16) = (withOpcode 0x200 0x5AB1#16).setPc 0x202#16 := by
  decide
theorem test_fetch_word : after (step (State.reset.withFetchWord 16 0xA2F0)) (fun t => (t.i, t.pc)) =
    some (0x02F0#16, 0x0202#16) := by decide
theorem test_tick : ((tick ((State.reset.setDt 2#8).setSt 1#8)).dt, (tick ((State.reset.setDt 2#8).setSt 1#8)).st) = (1#8, 0#8) := by
  decide
theorem test_tick_floor : tick State.reset = State.reset := by decide
theorem test_load_rom : (loadRom [0x12#8, 0x00#8, 0xAB#8] (State.reset.setPc 0x345#16)).map (fun t => (t.mem, t.pc)) =
    some ([(0x200, 0x12#8), (0x202, 0xAB#8)], 0x0200#16) := by decide
theorem test_rom_too_large : (hostApply (.loadRom (List.replicate 3585 0x00#8)) State.reset).2 = .romTooLarge := by
  simp only [hostApply, loadRom, test_rom_too_long]; rfl
theorem test_ended_at_self_jump :
    programEnded [.loadRom [0x12#8, 0x00#8], .step] State.reset = true ∧
      programEnded [.loadRom [0x12#8, 0x02#8]] State.reset = false := by decide
theorem test_steps_taken : (EndCondition.stepsTaken 1).reached [.tick, .step] (withOpcode 0x200 0x6105#16) = true := by decide
theorem test_rom_too_large_code : HostResult.romTooLarge.code = some 5 := by decide
theorem test_font : (resetWith { fontImage := some ⟨[0xF0#8, 0x90#8], by decide⟩ }).mem = [(0, 0xF0#8), (1, 0x90#8)] := by decide

/-! ### Witnesses: hypotheses met together, each clause at a boundary -/

theorem witness_DecodeOfEncodeIsIdentity : (Instr.drw 0xF#4 0x0#4 0xF#4).wellFormed = true := by decide
theorem witness_EncodeOfDecodeIsIdentity : decode 0x8F16#16 = .ok (.shrReg 0xF#4 0x1#4) := by decide
theorem witness_AtMostOneTableRowMatches :
    ∃ r : OpcodeRow, opcodeTable[33]? = some r ∧ r.accepts 0xFF65#16 = true := ⟨_, rfl, by decide⟩
theorem witness_RefusedOpcodesAreTheListedFamilies :
    illegalOpcode 0x00ED#16 = true ∧ illegalOpcode 0x00EE#16 = false := by decide
theorem witness_StepRunsDecodedInstruction :
    (withOpcode 0xFFE 0x6001#16).pc.toNat ≤ 0xFFE ∧
      decode (bigEndian ((withOpcode 0xFFE 0x6001#16).mem.read 0xFFE) ((withOpcode 0xFFE 0x6001#16).mem.read 0xFFF)) =
        .ok (.ldImm 0x0#4 0x01#8) := by decide
theorem witness_FetchOutsideMemoryFaults : (State.reset.setPc 0xFFF#16).pc.toNat > 0xFFE := by decide
theorem witness_UnmatchedOpcodeFaults :
    State.reset.pc.toNat ≤ 0xFFE ∧
      decode (bigEndian (State.reset.mem.read State.reset.pc.toNat) (State.reset.mem.read (State.reset.pc.toNat + 1))) =
        .error (.unknownOpcode 0x0000#16) := by decide
theorem witness_FaultedStepLeavesAllButPc_fetch :
    step (State.reset.setPc 0xFFF#16) = .fault (.memoryFault 0xFFF#16 none) ∧ (State.reset.setPc 0xFFF#16).pc.toNat > 0xFFE :=
  ⟨rfl, by decide⟩
theorem witness_FaultedStepLeavesAllButPc_other :
    step (withOpcode 0xFFE 0x00EE#16) = .fault (.stackUnderflow 0xFFE#16 0x00EE#16) ∧
      (withOpcode 0xFFE 0x00EE#16).pc.toNat ≤ 0xFFE := ⟨rfl, by decide⟩
theorem witness_FaultRecordsAddressAndOpcode :
    step (withOpcode 0xFFE 0x00EE#16) = .fault (.stackUnderflow 0xFFE#16 0x00EE#16) := rfl
theorem witness_InstructionFaultsExactlyOnItsCondition :
    faultCondition (.ldMemVx 0x0#4) (State.reset.setI 0x1000#16) = true ∧
      faultCondition (.ldMemVx 0x0#4) (State.reset.setI 0xFFF#16) = false := by decide
theorem witness_RetPopsIntoPc : State.reset.sp.val = 0 ∧ 0 < ({ State.reset with sp := 16 } : State).sp.val := by decide
theorem witness_CallPushesAndJumps :
    ({ State.reset with sp := 16 } : State).sp.val = 16 ∧ ({ State.reset with sp := 15 } : State).sp.val < 16 := by decide
theorem witness_RetUndoesCall : ({ State.reset with sp := 15 } : State).sp.val < 16 := by decide
theorem witness_SelfJumpLeavesStateUnchanged :
    (withOpcode 0xFFE 0x1FFE#16).pc.toNat ≤ 0xFFE ∧ (0xFFE#12).toNat = (withOpcode 0xFFE 0x1FFE#16).pc.toNat ∧
      bigEndian ((withOpcode 0xFFE 0x1FFE#16).mem.read 0xFFE) ((withOpcode 0xFFE 0x1FFE#16).mem.read 0xFFF) =
        encode (.jp 0xFFE#12) := by decide
theorem witness_not_vf : (0xE#4 : Nibble) ≠ vf ∧ (0xF#4 : Nibble) = vf := by decide
theorem witness_DrawLoopsComputeXorFunction : (List.replicate 15 0xFF#8).length ≤ 15 := by decide
/-- A sprite's last bit on the cell the wrap puts it on, and a cell no bit falls on: both clauses of the XOR function. -/
theorem witness_spriteCovers : spriteCovers 63 31 [0x00#8, 0x01#8] 0 6 ∧ ¬ spriteCovers 63 31 [0x00#8, 0x01#8] 0 7 := by
  constructor
  · exact ⟨⟨1, by decide⟩, 7, by decide, by decide, by decide⟩
  · rintro ⟨r, c, -, hcol, hbit⟩
    revert r c
    decide
theorem witness_DrwDrawsSpriteAndSetsCollision :
    ¬((0x1#4 : Nibble).toNat > 0 ∧ (State.reset.setI 0xFFF#16).i.toNat + (0x1#4 : Nibble).toNat - 1 > 0xFFF) := by decide
theorem witness_DrawingTwiceRestoresScreen : (0x0#4 : Nibble) ≠ vf ∧ (0xE#4 : Nibble) ≠ vf ∧
    ¬((0xF#4 : Nibble).toNat > 0 ∧ (State.reset.setI 0xFF1#16).i.toNat + (0xF#4 : Nibble).toNat - 1 > 0xFFF) := by decide
theorem witness_KeySkipsFollowLatch :
    (setKey 0xF#4 true (withRegs 0x2#4 0x0F#8 0x0#4 0x00#8)).key[15]? = some true ∧
      (setKey 0xF#4 true (withRegs 0x2#4 0x10#8 0x0#4 0x00#8)).key[16]? ≠ some true := by decide
theorem witness_KeyWaitStoresLowestPressed_none : ∀ k : Nibble, State.reset.keyAt k = false := by decide
theorem witness_KeyWaitStoresLowestPressed_some :
    (setKey 0xF#4 true State.reset).keyAt 0xF#4 = true ∧
      ∀ j : Nibble, j.toNat < (0xF#4 : Nibble).toNat → (setKey 0xF#4 true State.reset).keyAt j = false := by decide
theorem witness_KeyWaitStepLeavesStateUnchanged :
    (withOpcode 0xFFE 0xF50A#16).pc.toNat ≤ 0xFFE ∧
      bigEndian ((withOpcode 0xFFE 0xF50A#16).mem.read 0xFFE) ((withOpcode 0xFFE 0xF50A#16).mem.read 0xFFF) =
        encode (.ldVxK 0x5#4) ∧ ∀ k : Nibble, (withOpcode 0xFFE 0xF50A#16).keyAt k = false := by decide
theorem witness_ExecutorNeverCountsTimersDown :
    exec (.ldDtVx 0x3#4) State.reset = .next (State.reset.setDt 0x00#8) := rfl
theorem witness_LdBStoresDecimalDigits :
    (State.reset.setI 0xFFD#16).mem.wf = true ∧ (State.reset.setI 0xFFD#16).i.toNat + 2 ≤ 0xFFF := by decide
/-- Also the hypotheses of `RegisterLoadReadsV0ToVx` and `LoadAfterDumpRestoresRegisters`. -/
theorem witness_RegisterDumpStoresV0ToVx :
    (State.reset.setI 0xFF0#16).mem.wf = true ∧ (State.reset.setI 0xFF0#16).i.toNat + (0xF#4 : Nibble).toNat ≤ 0xFFF := by decide
theorem witness_RangeOutsideMemoryFaults :
    ((0x2#4 : Nibble).toNat > 0 ∧ (State.reset.setI 0xFFF#16).i.toNat + (0x2#4 : Nibble).toNat - 1 > 0xFFF) ∧
      (State.reset.setI 0xFFE#16).i.toNat + 2 > 0xFFF ∧
      (State.reset.setI 0xFFF#16).i.toNat + (0x1#4 : Nibble).toNat > 0xFFF := by decide
theorem witness_StoredCodeIsFetched :
    (State.reset.setI 0xFF0#16).mem.wf = true ∧ (State.reset.setI 0xFF0#16).i.toNat + (0xF#4 : Nibble).toNat ≤ 0xFFF ∧
      (0xF#4 : Nibble).toNat ≤ (0xF#4 : Nibble).toNat ∧ (0xE#4 : Nibble).toNat + 1 = (0xF#4 : Nibble).toNat := by decide
theorem witness_SetKeySetsOneKey : ∀ (k : Nibble) (b : Bool), HostOp.step ≠ .setKey k b := fun _ _ => HostOp.noConfusion
theorem witness_EndedProgramStaysEnded :
    programEnded [] (withOpcode 0xFFE 0x1FFE#16) = true ∧
      (∀ bytes : List Byte, HostOp.loadRom bytes ∉ [HostOp.step, .tick]) ∧ ∀ op ∈ [HostOp.step], op = .step :=
  ⟨by decide, by simp, by decide⟩
theorem witness_FaultedRunNeverEnds : runFaulted [.step] State.reset = true := by decide
theorem witness_LoadRomCopiesOrRejects :
    State.reset.mem.wf = true ∧ (List.replicate 3585 0x00#8).length > 3584 ∧ (List.replicate 3584 0x00#8).length ≤ 3584 := by
  rw [List.length_replicate, List.length_replicate]; decide
theorem witness_FontImageFillsLowMemory : ((⟨[0xF0#8], by decide⟩ : Config.FontImage).bytes)[0]? = some 0xF0#8 := by decide
theorem witness_InvariantKeptByStep :
    (withOpcode 0x200 0x2200#16).Inv ∧
      step (withOpcode 0x200 0x2200#16) = .next { withOpcode 0x200 0x2200#16 with
        sp := 1, stack := State.reset.stack.set 0 0x0202#16 } := ⟨by decide, rfl⟩
theorem witness_InstructionsWriteOnlyTheirParts : exec (.jp 0x234#12) State.reset = .next (State.reset.setPc 0x234#16) := rfl
theorem witness_StepNeverWritesKeysOrStrap :
    step (withOpcode 0x200 0x1200#16) = .next (withOpcode 0x200 0x1200#16) := rfl
theorem witness_StackAboveSpIsUnobservable :
    AgreeBelowSp { State.reset with sp := 1 } { State.reset with sp := 1, stack := State.reset.stack.set 1 0xABCD#16 } :=
  ⟨by decide, by decide⟩
theorem witness_reachable : Reachable (hostApply .step State.reset).1 := .op .step _ (.reset {})

end Sys2Proof.Tests
end

/-! PROOFS of the statements about the state (spec/10_state.md R11 to R28). What each instruction leaves unchanged is shown once, by a
small algebra of frames over the model's named updates; the invariant and the two statements about unobservable state follow from it. -/

namespace Sys2Proof.Machine

/-! ### Frames by field: equality of the field itself, which says more than `Part.same` -/

/-- A part is untouched: the field of `t` is that of `s`. For memory this carries the canonical form over, which equal reads do not. -/
def Part.Untouched : Part → State → State → Prop
  | .v, s, t => t.v = s.v
  | .i, s, t => t.i = s.i
  | .pc, s, t => t.pc = s.pc
  | .sp, s, t => t.sp = s.sp
  | .stack, s, t => t.stack = s.stack
  | .mem, s, t => t.mem = s.mem
  | .dt, s, t => t.dt = s.dt
  | .st, s, t => t.st = s.st
  | .fb, s, t => t.fb = s.fb
  | .key, s, t => t.key = s.key
  | .indexIncrement, s, t => t.indexIncrement = s.indexIncrement
  | .draws, s, t => t.draws = s.draws

theorem Part.Untouched.trans {p : Part} {s t u : State} (h₁ : p.Untouched s t) (h₂ : p.Untouched t u) :
    p.Untouched s u := by
  cases p <;> exact Eq.trans h₂ h₁

theorem Part.Untouched.same {p : Part} {s t : State} (h : p.Untouched s t) : p.same s t := by
  cases p with
  | v => exact State.reg_eq_of_v_eq s t h
  | mem => exact fun a => congrArg (Memory.read · a) h
  | fb => exact fun row col => congrArg (Framebuffer.cell · row col) h
  | _ => exact h

/-- The transition from `s` to `t` writes at most the parts `ps` and, of the V registers, at most `rs`. -/
def Writes (ps : List Part) (rs : List Nibble) (s t : State) : Prop :=
  (∀ p : Part, p ∉ ps → p.Untouched s t) ∧ OnlyRegsChange rs s t

section
variable {ps qs : List Part} {rs ks : List Nibble} {s t u : State}

theorem Writes.untouched (h : Writes ps rs s t) (p : Part) (hp : p ∉ ps) : p.Untouched s t := h.1 p hp

theorem Writes.onlyChanges (h : Writes ps rs s t) : OnlyChanges ps s t := fun p hp => (h.untouched p hp).same

theorem Writes.onlyRegsChange (h : Writes ps rs s t) : OnlyRegsChange rs s t := h.2

/-- Two transitions in a row write what either writes. -/
theorem Writes.trans (h₁ : Writes ps rs s t) (h₂ : Writes qs ks t u) : Writes (ps ++ qs) (rs ++ ks) s u := by
  simp only [Writes, OnlyRegsChange, List.mem_append, not_or] at *
  exact ⟨fun p ⟨hp, hq⟩ => (h₁.1 p hp).trans (h₂.1 p hq), fun k ⟨hr, hk⟩ => (h₂.2 k hk).trans (h₁.2 k hr)⟩

theorem Writes.mono (h : Writes ps rs s t) (hp : ps ⊆ qs) (hr : rs ⊆ ks) : Writes qs ks s t :=
  ⟨fun p hq => h.1 p fun hm => hq (hp hm), fun k hk => h.2 k fun hm => hk (hr hm)⟩

/-- Where the register file is untouched no register changes. For a named update both premises are read off its field lemmas. -/
theorem Writes.of_untouched (hv : Part.v ∉ ps := by simp)
    (h : ∀ p : Part, p ∉ ps → p.Untouched s t := by intro p hp; cases p <;> simp_all [Part.Untouched]) :
    Writes ps [] s t :=
  ⟨h, fun k _ => State.reg_eq_of_v_eq s t (h .v hv) k⟩

end

/-! ### What each named update writes -/

section
variable (s : State)

theorem writes_setReg (x : Nibble) (b : Byte) : Writes [.v] [x] s (s.setReg x b) :=
  ⟨fun p hp => by cases p <;> simp_all [Part.Untouched],
    fun k hk => State.reg_setReg_ne s x k b (List.ne_of_not_mem_cons hk)⟩

theorem writes_setResultThenFlag (x : Nibble) (r f : Byte) : Writes [.v] [x, vf] s (s.setResultThenFlag x r f) :=
  ((writes_setReg s x r).trans (writes_setReg _ vf f)).mono (by simp) (by simp)

theorem writes_setI (a : Word) : Writes [.i] [] s (s.setI a) := .of_untouched

theorem writes_setDt (b : Byte) : Writes [.dt] [] s (s.setDt b) := .of_untouched

theorem writes_setSt (b : Byte) : Writes [.st] [] s (s.setSt b) := .of_untouched

theorem writes_setMem (m : Memory) : Writes [.mem] [] s (s.setMem m) := .of_untouched

theorem writes_setFb (f : Framebuffer) : Writes [.fb] [] s (s.setFb f) := .of_untouched

theorem writes_countDraw : Writes [.draws] [] s s.countDraw := .of_untouched

theorem writes_setPc (a : Word) : Writes [.pc] [] s (s.setPc a) := .of_untouched

theorem writes_skipIf (c : Bool) : Writes [.pc] [] s (s.skipIf c) := .of_untouched

theorem writes_push (v : Vector Word 16) (n : Fin 17) : Writes [.sp, .stack] [] s { s with stack := v, sp := n } :=
  .of_untouched

theorem writes_pop (n : Fin 17) : Writes [.sp] [] s { s with sp := n } := .of_untouched

/-- A register load writes the registers up to its count. -/
theorem writes_loadRegs (m : Memory) (a : Nat) (x : Nibble) :
    Writes [.v] (writtenRegs (.ldVxMem x)) s { s with v := loadRegs m a (regCount x) s.v } := by
  refine ⟨fun p hp => by cases p <;> simp_all [Part.Untouched], fun k hk => ?_⟩
  have hlt : ¬ k.toNat < regCount x := fun h =>
    hk (List.mem_map.mpr ⟨k.toNat, List.mem_range.mpr h, by simp⟩)
  simp [State.reg, getElem_loadRegs, hlt]

end

/-! ### What an instruction that can fault has done when it completes -/

section
variable {s t : State}

/-- An access behind a bounds check completes only within bounds, as the access. -/
theorem next_of_checked {c : Bool} {u : State} {f : Word → Word → Fault} {i : Instr}
    (h : (if c then .next u else raise f i s) = Host.Outcome.next t) : c = true ∧ u = t := by
  cases c with
  | false => cases h
  | true => exact ⟨rfl, Host.Outcome.next.inj h⟩

theorem execRet_next (h : exec .ret s = .next t) : ∃ _h0 : s.sp.val ≠ 0,
    t = ({ s with sp := ⟨s.sp.val - 1, by omega⟩ } : State).setPc (s.stack[s.sp.val - 1]'(by omega)) := by
  simp only [exec, execRet] at h
  rcases s.pop_spec with ⟨h0, hp⟩ | ⟨_, hp⟩ <;> rw [hp] at h <;> cases h
  exact ⟨h0, rfl⟩

theorem execCall_of_lt (nnn : Addr12) (h : s.sp.val < 16) : exec (.call nnn) s =
    .next (({ s with stack := s.stack.set s.sp.val s.pc h, sp := ⟨s.sp.val + 1, by omega⟩ } : State).setPc
      (zextAddr nnn)) := by
  simp only [exec, execCall, State.push, dif_pos h]

theorem execCall_of_full (nnn : Addr12) (h : ¬ s.sp.val < 16) :
    exec (.call nnn) s = .fault (.stackOverflow s.instrAddr (encode (.call nnn))) := by
  simp only [exec, execCall, State.push, dif_neg h, raise]

theorem execCall_next {nnn : Addr12} (h : exec (.call nnn) s = .next t) : ∃ hlt : s.sp.val < 16,
    t = ({ s with stack := s.stack.set s.sp.val s.pc hlt, sp := ⟨s.sp.val + 1, by omega⟩ } : State).setPc
      (zextAddr nnn) := by
  by_cases hlt : s.sp.val < 16
  · exact ⟨hlt, (Host.Outcome.next.inj ((execCall_of_lt nnn hlt).symm.trans h)).symm⟩
  · rw [execCall_of_full nnn hlt] at h; cases h

theorem execLdVxK_next {x : Nibble} (h : exec (.ldVxK x) s = .next t) : t = s.rewindPc ∨ ∃ b, t = s.setReg x b := by
  simp only [exec, execLdVxK] at h
  cases hk : s.lowestKey <;> rw [hk] at h <;> cases h
  · exact .inl rfl
  · exact .inr ⟨_, rfl⟩

end

/-- Every instruction writes at most the parts and registers R11, R13 and R28 list for it. -/
theorem exec_writes {i : Instr} {s t : State} (h : exec i s = .next t) :
    Writes (writtenParts i) (writtenRegs i) s t := by
  cases i with
  | cls => cases h; exact writes_setFb s _
  | ret =>
    obtain ⟨h0, rfl⟩ := execRet_next h
    exact ((writes_pop s _).trans (writes_setPc _ _)).mono (by simp [writtenParts]) (by simp)
  | call nnn =>
    obtain ⟨hlt, rfl⟩ := execCall_next h
    exact ((writes_push s _ _).trans (writes_setPc _ _)).mono (by simp [writtenParts]) (by simp)
  | jp | jpV0 => cases h; exact writes_setPc s _
  | seImm | sneImm | seReg | sneReg | skp | sknp => cases h; exact writes_skipIf s _
  | ldImm | addImm | ldReg | ldVxDt => cases h; exact writes_setReg s _ _
  | orReg | andReg | xorReg | addReg | subReg | subnReg => cases h; exact writes_setResultThenFlag s _ _ _
  | shrReg | shlReg =>
    cases h
    exact ((writes_setReg s vf _).trans (writes_setReg _ _ _)).mono (by simp [writtenParts]) (by simp [writtenRegs])
  | ldI | addI | ldF => cases h; exact writes_setI s _
  | rnd => cases h; exact (writes_setReg s _ _).trans (writes_countDraw _)
  | drw =>
    obtain ⟨-, rfl⟩ := next_of_checked h
    exact ((writes_setFb s _).trans (writes_setReg _ vf _)).mono (by simp [writtenParts]) (by simp [writtenRegs])
  | ldVxK =>
    obtain rfl | ⟨b, rfl⟩ := execLdVxK_next h
    · exact (writes_setPc s _).mono (by simp [writtenParts]) (by simp)
    · exact (writes_setReg s _ b).mono (by simp [writtenParts]) (by simp [writtenRegs])
  | ldDtVx => cases h; exact writes_setDt s _
  | ldStVx => cases h; exact writes_setSt s _
  | ldB =>
    obtain ⟨-, rfl⟩ := next_of_checked h
    exact writes_setMem s _
  | ldMemVx =>
    obtain ⟨-, rfl⟩ := next_of_checked h
    exact (writes_setMem s _).trans (writes_setI _ _)
  | ldVxMem x =>
    obtain ⟨-, rfl⟩ := next_of_checked h
    exact ((writes_loadRegs s _ _ x).trans (writes_setI _ _)).mono (by simp [writtenParts]) (by simp)

/-- Settles O54: every part and register outside the instruction's list is as before. -/
theorem instructionsWriteOnlyTheirParts : Obligations.InstructionsWriteOnlyTheirParts :=
  fun _ _ _ h => ⟨(exec_writes h).onlyChanges, (exec_writes h).onlyRegsChange⟩

/-! ### A Step that answers a next state (R20, R23) -/

/-- A Step that completes has run the instruction at pc, which was fetchable, with pc advanced. -/
theorem step_next {s t : State} (h : step s = .next t) : s.fetchable = true ∧ ∃ i, exec i s.advancePc = .next t := by
  rw [step] at h
  rcases cycle_spec s with ⟨_, hc⟩ | ⟨_, _, hc⟩ | ⟨hf, i, _, hc⟩ <;> rw [hc] at h
  · cases h
  · cases h
  · exact ⟨hf, i, h⟩

/-- No instruction's list names the key latch or the strap. -/
theorem key_strap_not_written (i : Instr) : Part.key ∉ writtenParts i ∧ Part.indexIncrement ∉ writtenParts i := by
  cases i <;> simp [writtenParts]

/-- Settles O55: no instruction's list names the key latch or the strap, and the fetch writes pc alone. -/
theorem stepNeverWritesKeysOrStrap : Obligations.StepNeverWritesKeysOrStrap := by
  intro s t h
  obtain ⟨-, i, hi⟩ := step_next h
  obtain ⟨hkey, hstrap⟩ := key_strap_not_written i
  exact ⟨(exec_writes hi).untouched .key hkey, (exec_writes hi).untouched .indexIncrement hstrap⟩

/-! ### The invariant (R14, R26 d) -/

/-- The invariant's clause on the stack: a return address is that of a fetchable `CALL`, plus 2. -/
def State.ReturnsBounded (s : State) : Prop :=
  ∀ k : Fin 16, k.val < s.sp.val → 2 ≤ (s.stack[k.val]).toNat ∧ (s.stack[k.val]).toNat ≤ 0x1000

/-- The fetch advance does not wrap: while a meaning runs, pc lies between 2 and 0x1000. -/
theorem advancePc_bounds {s : State} (hf : s.fetchable = true) :
    2 ≤ s.advancePc.pc.toNat ∧ s.advancePc.pc.toNat ≤ 0x1000 := by
  have hle : s.pc.toNat ≤ 0xFFE := by simpa [State.fetchable] using hf
  rw [State.advancePc_pc]
  bv_omega

section
variable {i : Instr} {s t : State}

theorem dataInMemory_le {len : Nat} (h : s.dataInMemory len = true) (hpos : 0 < len) :
    s.i.toNat + len ≤ Config.memSize := by
  rw [State.dataInMemory_iff] at h
  unfold Config.memSize
  omega

/-- Only `LD B` and `LD [I], Vx` store, and both check that their range lies in memory. -/
theorem exec_mem_wf (hw : s.mem.wf = true) (h : exec i s = .next t) : t.mem.wf = true := by
  cases i with
  | ldB x | ldMemVx x =>
    obtain ⟨hin, rfl⟩ := next_of_checked h
    exact Memory.wf_writeBytes _ _ _ (by simpa [regCount] using dataInMemory_le hin (by simp [regCount])) hw
  | _ =>
    have hm : t.mem = s.mem := (exec_writes h).untouched .mem (by simp [writtenParts])
    rwa [hm]

theorem zextAddr_pc_le (nnn : Addr12) : (zextAddr nnn).toNat ≤ 0x10FE := by
  rw [zextAddr_toNat]; omega

theorem skipIf_pc_le (hpc : s.pc.toNat ≤ 0x1000) (c : Bool) : (s.skipIf c).pc.toNat ≤ 0x10FE := by
  rw [State.skipIf_pc]
  split <;> bv_omega

/-- Where an instruction may leave pc: at a 12-bit target plus at most a byte, at a return address, at most 2 further on, or where the
wait rewinds it to (R14). -/
theorem exec_pc_le (hlo : 2 ≤ s.pc.toNat) (hhi : s.pc.toNat ≤ 0x1000) (hret : s.ReturnsBounded)
    (h : exec i s = .next t) : t.pc.toNat ≤ 0x10FE := by
  cases i with
  | ret =>
    obtain ⟨h0, rfl⟩ := execRet_next h
    have hle : (s.stack[s.sp.val - 1]).toNat ≤ 0x1000 := (hret ⟨s.sp.val - 1, by omega⟩ (Nat.sub_one_lt h0)).2
    exact hle.trans (by decide)
  | call nnn =>
    obtain ⟨-, rfl⟩ := execCall_next h
    exact zextAddr_pc_le nnn
  | jp nnn => cases h; exact zextAddr_pc_le nnn
  | jpV0 nnn =>
    cases h
    have hnnn := nnn.isLt
    have hv0 := (s.reg 0x0#4).isLt
    rw [State.setPc_pc, BitVec.toNat_add, zextAddr_toNat, zextByte_toNat]; omega
  | seImm | sneImm | seReg | sneReg | skp | sknp => cases h; exact skipIf_pc_le hhi _
  | ldVxK x =>
    obtain rfl | ⟨b, rfl⟩ := execLdVxK_next h
    · rw [State.rewindPc_pc]; bv_omega
    · rw [State.setReg_pc]; omega
  | _ =>
    have hp : t.pc = s.pc := (exec_writes h).untouched .pc (by simp [writtenParts])
    rw [hp]; omega

/-- `CALL` pushes the pc that is already past it, `RET` only drops an entry, and nothing else writes the stack (R26 d). -/
theorem exec_returnsBounded (hlo : 2 ≤ s.pc.toNat) (hhi : s.pc.toNat ≤ 0x1000) (hret : s.ReturnsBounded)
    (h : exec i s = .next t) : t.ReturnsBounded := by
  cases i with
  | ret =>
    obtain ⟨h0, rfl⟩ := execRet_next h
    exact fun k hk => hret k (hk.trans_le (Nat.sub_le _ _))
  | call nnn =>
    obtain ⟨hlt, rfl⟩ := execCall_next h
    intro k hk
    simp only [State.setPc_stack, State.setPc_sp, Vector.getElem_set] at hk ⊢
    split
    · exact ⟨hlo, hhi⟩
    · exact hret k (by omega)
  | _ =>
    have hsp : t.sp = s.sp := (exec_writes h).untouched .sp (by simp [writtenParts])
    have hst : t.stack = s.stack := (exec_writes h).untouched .stack (by simp [writtenParts])
    simpa only [State.ReturnsBounded, hsp, hst] using hret

end

/-- Settles O52: the fetch leaves pc in [2, 0x1000], and from there each instruction keeps the three clauses. -/
theorem invariantKeptByStep : Obligations.InvariantKeptByStep := by
  rintro s t ⟨hw, -, hret⟩ h
  obtain ⟨hf, i, hi⟩ := step_next h
  obtain ⟨hlo, hhi⟩ := advancePc_bounds hf
  exact ⟨exec_mem_wf (s := s.advancePc) hw hi, exec_pc_le hlo hhi hret hi, exec_returnsBounded hlo hhi hret hi⟩

/-- A fault leaves the state as it was, or with the fetch's advance of pc (R125). -/
theorem stateAfterStep_of_fault {s : State} {f : Fault} (h : step s = .fault f) :
    stateAfterStep s = if s.fetchable then s.advancePc else s := by
  rw [step] at h
  simp only [stateAfterStep, stateAfterCycle, h]

/-- A faulting Step keeps the invariant. -/
theorem inv_stateAfterStep_of_fault {s : State} {f : Fault} (hs : s.Inv) (h : step s = .fault f) :
    (stateAfterStep s).Inv := by
  rw [stateAfterStep_of_fault h]
  obtain ⟨hw, hpc, hret⟩ := hs
  split
  next hf =>
    obtain ⟨-, hhi⟩ := advancePc_bounds hf
    exact ⟨hw, hhi.trans (by decide), hret⟩
  next => exact ⟨hw, hpc, hret⟩

/-- An accepted ROM fits between 0x200 and the end of memory, and pc becomes 0x200 (R112). -/
theorem inv_loadRom {s t : State} {bytes : List Byte} (hs : s.Inv) (h : loadRom bytes s = some t) : t.Inv := by
  obtain ⟨hw, -, hret⟩ := hs
  unfold loadRom at h
  split at h
  next hfit =>
    cases h
    have hlen : bytes.length ≤ Config.romMax := of_decide_eq_true hfit
    have hend : Config.romBase + bytes.length ≤ Config.memSize := Nat.add_le_add_left hlen Config.romBase
    exact ⟨Memory.wf_writeBytes bytes _ _ hend hw, by simp [Config.romBase], hret⟩
  next => cases h

/-- Settles O53: Steps and LoadRom by the lemmas above; the other operations write no part the invariant speaks of. -/
theorem invariantKeptByEveryHostOperation : Obligations.InvariantKeptByEveryHostOperation := by
  intro op s hs
  cases op with
  | loadRom bytes =>
    cases h : loadRom bytes s with
    | none => simpa only [hostApply, h] using hs
    | some t => simpa only [hostApply, h] using inv_loadRom hs h
  | step =>
    cases h : step s with
    | next t => simpa only [hostApply, h] using invariantKeptByStep s t hs h
    | fault f => simpa only [hostApply, h] using inv_stateAfterStep_of_fault hs h
    | refused r => simpa only [hostApply, h] using hs
  | tick | setKey | observe => exact hs

/-! ### State that is not observed (R19, R21, R95) -/

/-- Two stacks agree in the slots below `n`. -/
def EqBelow (n : Nat) (v w : Vector Word 16) : Prop := ∀ k : Fin 16, k.val < n → v[k.val] = w[k.val]

/-- The relation `SoundTimerIsUnobservable` writes out: two states that differ at most in st. -/
def DifferAtMostInSt (s t : State) : Prop := t = { s with st := t.st }

/-- The stack slots and the sound timer changed as `g` and `b` say. -/
def State.mapUnread (g : Vector Word 16 → Vector Word 16) (b : Byte → Byte) (s : State) : State :=
  { s with stack := g s.stack, st := b s.st }

/-- A function applied to the next state, where an outcome has one. -/
def mapNext (f : State → State) : Result → Result
  | .next s => .next (f s)
  | .fault r => .fault r
  | .refused r => .refused r

section
variable (g : Vector Word 16 → Vector Word 16) (b : Byte → Byte) (s : State)

theorem skipIf_mapUnread (c : Bool) : (s.mapUnread g b).skipIf c = (s.skipIf c).mapUnread g b := by
  cases c <;> rfl

theorem lowestKeyFrom_mapUnread (k n : Nat) : lowestKeyFrom (s.mapUnread g b) k n = lowestKeyFrom s k n := by
  induction n generalizing k with
  | zero => rfl
  | succ n ih => simp only [lowestKeyFrom, ih]; rfl

/-- A bounds check commutes with a change of the stack slots and the sound timer when the access behind it does. -/
theorem checked_mapUnread {c : Bool} {u w : State} {f : Word → Word → Fault} {i : Instr} (h : w = u.mapUnread g b) :
    (if c then .next w else raise f i (s.mapUnread g b)) = mapNext (·.mapUnread g b) (if c then .next u else raise f i s) := by
  subst h; cases c <;> rfl

/-- A pop reads a slot below sp, so it does not see a change of the slots from sp up. -/
theorem pop_mapUnread (hg : EqBelow s.sp.val (g s.stack) s.stack) :
    (s.mapUnread g b).pop = s.pop.map fun p => (p.1, p.2.mapUnread g b) := by
  rcases s.pop_spec with ⟨h, hp⟩ | ⟨h, hp⟩
  · have htop := hg ⟨s.sp.val - 1, by omega⟩ (by simp; omega)
    rw [hp]
    simpa [State.pop, State.mapUnread, h] using htop
  · rw [hp]
    simp [State.pop, State.mapUnread, h]

/-- An instruction that writes neither the stack slots nor st reads of them at most a slot below sp, and leaves them as they are. -/
theorem exec_mapUnread {i : Instr} (hstack : Part.stack ∉ writtenParts i) (hst : Part.st ∉ writtenParts i)
    (hg : EqBelow s.sp.val (g s.stack) s.stack) :
    exec i (s.mapUnread g b) = mapNext (·.mapUnread g b) (exec i s) := by
  cases i with
  | call | ldStVx => simp [writtenParts] at hstack hst
  | ret =>
    simp only [exec, execRet, pop_mapUnread g b s hg]
    cases s.pop <;> rfl
  | seImm | sneImm | seReg | sneReg | skp | sknp => exact congrArg Host.Outcome.next (skipIf_mapUnread g b s _)
  | drw | ldB | ldMemVx | ldVxMem => exact checked_mapUnread g b s rfl
  | ldVxK x =>
    simp only [exec, execLdVxK, State.lowestKey, lowestKeyFrom_mapUnread]
    cases lowestKeyFrom s 0 16 <;> rfl
  | _ => rfl

end

/-- Two states with one pc and one memory take Steps of one kind when every instruction does from the two states with pc advanced. -/
theorem step_sameOutcome {rel : State → State → Prop} {s t : State} (hpc : t.pc = s.pc) (hmem : t.mem = s.mem)
    (h : ∀ i, SameOutcome rel (exec i s.advancePc) (exec i t.advancePc)) : SameOutcome rel (step s) (step t) := by
  have hf : t.fetchable = s.fetchable := by rw [State.fetchable, State.fetchable, hpc]
  have ho : t.opcodeAtPc = s.opcodeAtPc := by rw [State.opcodeAtPc, State.opcodeAtPc, hpc, hmem]
  simp only [step, cycle, hf, ho, hpc]
  split
  · split
    · exact h _
    · rfl
  · rfl

/-- An outcome and its image under `f` are of one kind when each next state is related to its image. -/
theorem sameOutcome_mapNext {rel : State → State → Prop} {f : State → State} {r : Result}
    (h : ∀ t, r = .next t → rel t (f t)) : SameOutcome rel r (mapNext f r) := by
  cases r with
  | next t => exact h t rfl
  | _ => rfl

/-- No instruction reads the sound timer, and `LD ST, Vx` writes it alike from both states. -/
theorem exec_sameOutcome_st (i : Instr) (s : State) (b : Byte) :
    SameOutcome DifferAtMostInSt (exec i s) (exec i { s with st := b }) := by
  have of_unwritten (hstack : Part.stack ∉ writtenParts i) (hst : Part.st ∉ writtenParts i) :
      SameOutcome DifferAtMostInSt (exec i s) (exec i (s.mapUnread id fun _ => b)) := by
    rw [exec_mapUnread id (fun _ => b) s hstack hst fun _ _ => rfl]
    exact sameOutcome_mapNext fun _ _ => rfl
  cases i with
  | ldStVx => rfl
  | call nnn =>
    by_cases h : s.sp.val < 16
    · rw [execCall_of_lt nnn h, execCall_of_lt (s := { s with st := b }) nnn h]; rfl
    · rw [execCall_of_full nnn h, execCall_of_full (s := { s with st := b }) nnn h]; rfl
  | _ => exact of_unwritten (by simp [writtenParts]) (by simp [writtenParts])

/-- Settles O57: the fetch does not read st, and no instruction does. -/
theorem soundTimerIsUnobservable : Obligations.SoundTimerIsUnobservable :=
  fun s b => step_sameOutcome rfl rfl fun i => exec_sameOutcome_st i s.advancePc b

/-- Only `CALL`, which writes a stack slot, raises sp. -/
theorem exec_sp_le {i : Instr} {s t : State} (hstack : Part.stack ∉ writtenParts i) (h : exec i s = .next t) :
    t.sp.val ≤ s.sp.val := by
  cases i with
  | call => simp [writtenParts] at hstack
  | ret =>
    obtain ⟨_, rfl⟩ := execRet_next h
    exact Nat.sub_le _ _
  | _ =>
    have hsp : t.sp = s.sp := (exec_writes h).untouched .sp (by simp [writtenParts])
    rw [hsp]

/-- A pushed return address goes to the slot at sp in both states, so they agree one slot further up. -/
theorem execCall_sameOutcome_agreeBelowSp (nnn : Addr12) (s : State) (v : Vector Word 16)
    (hv : EqBelow s.sp.val v s.stack) :
    SameOutcome AgreeBelowSp (exec (.call nnn) s) (exec (.call nnn) { s with stack := v }) := by
  by_cases h : s.sp.val < 16
  · rw [execCall_of_lt nnn h, execCall_of_lt (s := { s with stack := v }) nnn h]
    refine ⟨rfl, fun k hk => ?_⟩
    simp only [State.setPc_stack, State.setPc_sp, Vector.getElem_set] at hk ⊢
    split
    · rfl
    · exact hv k (by omega)
  · rw [execCall_of_full nnn h, execCall_of_full (s := { s with stack := v }) nnn h]; rfl

/-- From two states that differ only in slots from sp up, an instruction has one outcome, up to slots from the new sp up. -/
theorem exec_sameOutcome_agreeBelowSp (i : Instr) (s : State) (v : Vector Word 16)
    (hv : EqBelow s.sp.val v s.stack) :
    SameOutcome AgreeBelowSp (exec i s) (exec i { s with stack := v }) := by
  have of_unwritten (hstack : Part.stack ∉ writtenParts i) (hst : Part.st ∉ writtenParts i) :
      SameOutcome AgreeBelowSp (exec i s) (exec i (s.mapUnread (fun _ => v) id)) := by
    rw [exec_mapUnread (fun _ => v) id s hstack hst hv]
    refine sameOutcome_mapNext fun t ht => ⟨rfl, fun k hk => ?_⟩
    have hkept : t.stack = s.stack := (exec_writes ht).untouched .stack hstack
    simp only [hkept]
    exact hv k (hk.trans_le (exec_sp_le hstack ht))
  cases i with
  | call nnn => exact execCall_sameOutcome_agreeBelowSp nnn s v hv
  | ldStVx => exact ⟨rfl, hv⟩
  | _ => exact of_unwritten (by simp [writtenParts]) (by simp [writtenParts])

/-- Settles O56: the fetch reads no stack slot, and no instruction reads one from sp up. -/
theorem stackAboveSpIsUnobservable : Obligations.StackAboveSpIsUnobservable := by
  rintro s t ⟨ht, hv⟩
  rw [ht]
  exact step_sameOutcome rfl rfl fun i => exec_sameOutcome_agreeBelowSp i s.advancePc t.stack hv

end Sys2Proof.Machine

/-! PROOFS of the statements about memory (spec/20_memory.md R32 to R36, R44): what a fetch does on either side of its bound, what an
access behind the data bounds check does, and what memory reads after a register dump. -/

namespace Sys2Proof.Machine

/-! ### The fetch and its bound (R33, R34, R110) -/

section
variable {s : State}

theorem State.fetchable_iff : s.fetchable = true ↔ s.pc.toNat ≤ 0xFFE := decide_eq_true_iff

theorem step_of_decode {i : Instr} (hf : s.fetchable = true) (hd : decode s.opcodeAtPc = .ok i) :
    step s = exec i s.advancePc := by
  rw [step, cycle, if_pos hf, hd]

theorem step_of_not_fetchable (hf : ¬ s.fetchable = true) : step s = .fault (.memoryFault s.pc none) := by
  rw [step, cycle, if_neg hf]

end

/-- Settles O7: the two bytes read at pc are the opcode the cycle decodes. -/
theorem stepRunsDecodedInstruction : Obligations.StepRunsDecodedInstruction :=
  fun _ _ hpc hd => step_of_decode (State.fetchable_iff.mpr hpc) hd

/-- Settles O8: such a pc fails the fetch bound, and the fault comes before the advance of pc. -/
theorem fetchOutsideMemoryFaults : Obligations.FetchOutsideMemoryFaults := by
  intro s hpc
  have hf : ¬ s.fetchable = true := fun hf => hpc.not_ge (State.fetchable_iff.mp hf)
  have hstep := step_of_not_fetchable hf
  exact ⟨hstep, by rw [stateAfterStep_of_fault hstep, if_neg hf]⟩

/-! ### The data bounds check (R36, R122) -/

section
variable {s : State}

/-- An access whose range is not in memory is a MemoryFault, whatever the access would have answered. -/
theorem checked_of_not_inMemory {len : Nat} {i : Instr} {r : Result} (hpos : len > 0)
    (hout : s.i.toNat + len - 1 > 0xFFF) :
    (if s.dataInMemory len then r else raise memoryFaultOf i s) =
      .fault (.memoryFault (s.pc - 2#16) (some (encode i))) :=
  if_neg fun hin => (s.dataInMemory_iff len).mp hin ⟨hpos, hout⟩

end

/-- Settles O44: each of the four instructions is an access behind the check, of n, 3, x + 1 and x + 1 bytes. -/
theorem rangeOutsideMemoryFaults : Obligations.RangeOutsideMemoryFaults := by
  intro s x y n
  refine ⟨fun ⟨hn, hout⟩ => ?drw, fun hout => ?ldB, fun hout => ?ldMemVx, fun hout => ?ldVxMem⟩
  case drw => exact checked_of_not_inMemory hn hout
  case ldB => exact checked_of_not_inMemory (Nat.succ_pos 2) hout
  case ldMemVx | ldVxMem => exact checked_of_not_inMemory (Nat.succ_pos x.toNat) hout

/-! ### Memory after a register dump (R104, R44) -/

/-- What a register dump leaves in memory (R104). -/
def State.memAfterDump (s : State) (x : Nibble) : Memory := s.mem.writeBytes s.i.toNat (s.regsUpTo x)

section
variable {s : State} {x k : Nibble}

theorem execLdMemVx_of_le (hin : s.i.toNat + x.toNat ≤ 0xFFF) :
    exec (.ldMemVx x) s = .next ((s.setMem (s.memAfterDump x)).setI (s.indexAfter x)) :=
  if_pos ((s.dataInMemory_iff _).mpr fun ⟨_, hout⟩ => hin.not_gt hout)

/-- Each address of the range reads the register dumped there. -/
theorem State.read_memAfterDump (hw : s.mem.wf = true) (hin : s.i.toNat + x.toNat ≤ 0xFFF) (hk : k.toNat ≤ x.toNat) :
    (s.memAfterDump x).read (s.i.toNat + k.toNat) = s.reg k := by
  have hlen : k.toNat < (s.regsUpTo x).length := by rw [State.length_regsUpTo]; omega
  have hend : s.i.toNat + (s.regsUpTo x).length ≤ Config.memSize := by
    rw [State.length_regsUpTo, Config.memSize]; omega
  rw [State.memAfterDump, Memory.read_writeBytes_inside _ _ _ _ hlen hend hw, State.getElem_regsUpTo,
    BitVec.ofNat_toNat, BitVec.setWidth_eq]

end

/-- Settles O45: the fetch reads the two dumped registers, since an address inside memory fits in pc. -/
theorem storedCodeIsFetched : Obligations.StoredCodeIsFetched := by
  intro s x j k hw hin hk hjk
  refine ⟨_, execLdMemVx_of_le hin, ?_⟩
  have hpc : (BitVec.ofNat 16 (s.i.toNat + j.toNat)).toNat = s.i.toNat + j.toNat := by
    rw [BitVec.toNat_ofNat]; omega
  have hhi := State.read_memAfterDump hw hin (k := j) (by omega)
  have hlo := State.read_memAfterDump hw hin hk
  rw [← hjk, ← Nat.add_assoc] at hlo
  simp only [State.opcodeAtPc, Memory.fetch16, State.setI_mem, State.setMem_mem, hpc, hhi, hlo]

end Sys2Proof.Machine

/-! PROOFS of the statements about encoding (spec/30_encoding.md R46 to R54). The dispatch is walked once (`decode_answers`): what it
answers is an instruction that encodes as the opcode, or the refusal of an opcode R52 lists. The rows of the table are walked once
(`decode_of_accepts`): the dispatch decodes an opcode a row accepts as that row does. The statements follow from these two. -/

namespace Sys2Proof

/-! ### A word from the fields a decoder has tested (R46, R47) -/

section
variable {op : Word} {t n : Nibble} {kk : Byte}

theorem formatA_of_t (ht : Opcode.t op = t) : formatA t (Opcode.nnn op) = op := by
  rw [← ht, formatA_of_fields]

theorem formatXK_of_t (ht : Opcode.t op = t) : formatXK t (Opcode.x op) (Opcode.kk op) = op := by
  rw [← ht, formatXK_of_fields]

theorem formatXK_of_t_kk (ht : Opcode.t op = t) (hk : Opcode.kk op = kk) : formatXK t (Opcode.x op) kk = op := by
  rw [← hk, formatXK_of_t ht]

theorem formatXY_of_t_n (ht : Opcode.t op = t) (hn : Opcode.n op = n) :
    formatXY t (Opcode.x op) (Opcode.y op) n = op := by
  rw [← ht, ← hn, formatXY_of_fields]

end

/-! ### What the dispatch can answer (R49, R51, R52) -/

/-- The answers open to a decoder at `op`: an instruction that encodes as `op`, or the refusal of an opcode R52 lists. -/
inductive Answers (op : Word) : Except DecodeError Instr → Prop where
  | legal {i : Instr} (hlegal : illegalOpcode op = false) (hi : encode i = op) : Answers op (.ok i)
  | refused (hillegal : illegalOpcode op = true) : Answers op (.error (.unknownOpcode op))

section
variable {op : Word} {d : Except DecodeError Instr} {i : Instr}

theorem Answers.encode_eq : Answers op (.ok i) → encode i = op
  | .legal _ hi => hi

theorem Answers.eq_refusal (h : Answers op d) (hop : illegalOpcode op = true) : d = .error (.unknownOpcode op) := by
  cases h with
  | legal hlegal => rw [hop] at hlegal; contradiction
  | refused => rfl

theorem Answers.exists_ok (h : Answers op d) (hop : illegalOpcode op = false) : ∃ i, d = .ok i := by
  cases h with
  | legal => exact ⟨_, rfl⟩
  | refused hillegal => rw [hop] at hillegal; contradiction

end

/-- The low nibbles that select no row of family 8 are those R52 lists. -/
theorem nibble_refused_in_family8 : ∀ n : Nibble,
    n ∉ [0x0#4, 0x1#4, 0x2#4, 0x3#4, 0x4#4, 0x5#4, 0x6#4, 0x7#4, 0xE#4] →
    n ∈ [0x8#4, 0x9#4, 0xA#4, 0xB#4, 0xC#4, 0xD#4, 0xF#4] := by
  decide

/-- The last arm of the dispatch is family F. -/
theorem nibble_eq_F : ∀ t : Nibble,
    t ∉ [0x0#4, 0x1#4, 0x2#4, 0x3#4, 0x4#4, 0x5#4, 0x6#4, 0x7#4, 0x8#4, 0x9#4, 0xA#4, 0xB#4, 0xC#4, 0xD#4, 0xE#4] →
    t = 0xF#4 := by
  decide

section
variable {op : Word}

theorem decode8_answers (ht : Opcode.t op = 0x8#4) : Answers op (decode8 op) := by
  unfold decode8
  split
  case h_10 =>
    have hn := nibble_refused_in_family8 (Opcode.n op) (by simp_all)
    exact .refused (by simpa [illegalOpcode, ht] using hn)
  all_goals
    rename_i hn
    exact .legal (by simp [illegalOpcode, ht, hn]) (formatXY_of_t_n ht hn)

theorem decodeF_answers (ht : Opcode.t op = 0xF#4) : Answers op (decodeF op) := by
  unfold decodeF
  split
  case h_10 => exact .refused (by simp_all [illegalOpcode])
  all_goals
    rename_i hk
    exact .legal (by simp [illegalOpcode, ht, hk]) (formatXK_of_t_kk ht hk)

theorem decode_answers (op : Word) : Answers op (decode op) := by
  unfold decode
  split
  case h_9 ht => exact decode8_answers ht
  case h_16 => exact decodeF_answers (nibble_eq_F _ (by simp_all))
  all_goals rename_i ht
  -- Formats A, XK and XYN, without a further check.
  case h_2 | h_3 | h_11 | h_12 => exact .legal (by simp [illegalOpcode, ht]) (formatA_of_t ht)
  case h_4 | h_5 | h_7 | h_8 | h_13 => exact .legal (by simp [illegalOpcode, ht]) (formatXK_of_t ht)
  case h_14 => exact .legal (by simp [illegalOpcode, ht]) (formatXY_of_t_n ht rfl)
  -- Family 0 checks the whole word, families 5 and 9 the low nibble, family E the low byte.
  case h_1 =>
    split_ifs with h0 h1
    · rw [h0]; exact .legal rfl rfl
    · rw [h1]; exact .legal rfl rfl
    · exact .refused (by simp [illegalOpcode, ht, h0, h1])
  case h_6 | h_10 =>
    split_ifs with hn
    · exact .legal (by simp [illegalOpcode, ht, hn]) (formatXY_of_t_n ht hn)
    · exact .refused (by simp [illegalOpcode, ht, hn])
  case h_15 =>
    split_ifs with hk hk'
    · exact .legal (by simp [illegalOpcode, ht, hk]) (formatXK_of_t_kk ht hk)
    · exact .legal (by simp [illegalOpcode, ht, hk']) (formatXK_of_t_kk ht hk')
    · exact .refused (by simp [illegalOpcode, ht, hk, hk'])

end

/-! ### What a row accepts (R49, R50) -/

section
variable {r : OpcodeRow} {op : Word}

theorem OpcodeRow.accepts_iff : r.accepts op = true ↔ op &&& r.mask = r.value := beq_iff_eq

theorem OpcodeRow.eq_of_accepts (h : r.accepts op = true) (hm : r.mask = BitVec.allOnes 16) : op = r.value := by
  rw [← accepts_iff.mp h, hm, BitVec.and_allOnes]

/-- A field the mask covers whole is the match's. -/
theorem OpcodeRow.field_of_accepts (h : r.accepts op = true) {start len : Nat}
    (hm : r.mask.extractLsb' start len = BitVec.allOnes len) : op.extractLsb' start len = r.value.extractLsb' start len := by
  rw [← accepts_iff.mp h, BitVec.extractLsb'_and, hm, BitVec.and_allOnes]

theorem OpcodeRow.t_of_accepts (h : r.accepts op = true) (hm : Opcode.t r.mask = 0xF#4) :
    Opcode.t op = Opcode.t r.value := field_of_accepts h hm

theorem OpcodeRow.n_of_accepts (h : r.accepts op = true) (hm : Opcode.n r.mask = 0xF#4) :
    Opcode.n op = Opcode.n r.value := field_of_accepts h hm

theorem OpcodeRow.kk_of_accepts (h : r.accepts op = true) (hm : Opcode.kk r.mask = 0xFF#8) :
    Opcode.kk op = Opcode.kk r.value := field_of_accepts h hm

/-- The first two rows compare the whole word; each other row compares the fields that the dispatch tests in its family. -/
theorem decode_of_accepts (hr : r ∈ opcodeTable) (h : r.accepts op = true) : decode op = .ok (r.operation op) := by
  fin_cases hr
  iterate 2 rw [OpcodeRow.eq_of_accepts h rfl]; rfl
  all_goals
    simp (disch := decide) only [decode, decode8, decodeF, OpcodeRow.t_of_accepts h, OpcodeRow.n_of_accepts h,
      OpcodeRow.kk_of_accepts h]
    rfl

end

/-! ### The rows are disjoint (R49) -/

/-- The match values of two rows differ on a bit that both masks compare. -/
theorem opcodeTable_values_differ : opcodeTable.Pairwise fun r q => r.value &&& q.mask ≠ q.value &&& r.mask := by
  decide

section
variable {r q : OpcodeRow} {op : Word}

theorem OpcodeRow.value_and_mask_comm (hr : r.accepts op = true) (hq : q.accepts op = true) :
    r.value &&& q.mask = q.value &&& r.mask := by
  rw [← accepts_iff.mp hr, ← accepts_iff.mp hq, BitVec.and_assoc, BitVec.and_assoc, BitVec.and_comm r.mask]

theorem not_lt_of_accepts {j k : Nat} (hj : opcodeTable[j]? = some r) (hk : opcodeTable[k]? = some q)
    (hr : r.accepts op = true) (hq : q.accepts op = true) : ¬ j < k := by
  intro hlt
  obtain ⟨hjl, rfl⟩ := List.getElem?_eq_some_iff.mp hj
  obtain ⟨hkl, rfl⟩ := List.getElem?_eq_some_iff.mp hk
  exact List.pairwise_iff_getElem.mp opcodeTable_values_differ j k hjl hkl hlt (OpcodeRow.value_and_mask_comm hr hq)

end

/-- Settles O5: two rows that accept one opcode have the same match on the bits both masks compare, so neither comes before the
other. -/
theorem atMostOneTableRowMatches : Obligations.AtMostOneTableRowMatches := fun _ _ _ _ _ hj hk hr hq =>
  Nat.le_antisymm (Nat.not_lt.mp (not_lt_of_accepts hk hj hq hr)) (Nat.not_lt.mp (not_lt_of_accepts hj hk hr hq))

/-! ### The two decoders and the encoder -/

theorem encodingRow (i : Instr) : Laws.EncodingRow.Statement i := by
  open Laws.EncodingRow in
  cases i
  exacts [cls, ret, jp _, call _, seImm _ _, sneImm _ _, seReg _ _, ldImm _ _, addImm _ _, ldReg _ _, orReg _ _,
    andReg _ _, xorReg _ _, addReg _ _, subReg _ _, shrReg _ _, subnReg _ _, shlReg _ _, sneReg _ _, ldI _, jpV0 _,
    rnd _ _, drw _ _ _, skp _, sknp _, ldVxDt _, ldVxK _, ldDtVx _, ldStVx _, addI _, ldF _, ldB _, ldMemVx _, ldVxMem _]

theorem decode_encode (i : Instr) : decode (encode i) = .ok i := by
  obtain ⟨-, r, hr, hacc, hop⟩ := encodingRow i
  rw [decode_of_accepts (List.mem_of_getElem? hr) hacc, hop]

theorem encode_of_decode {op : Word} {i : Instr} (h : decode op = .ok i) : encode i = op :=
  (h ▸ decode_answers op).encode_eq

/-- Settles O2: the encoding matches the instruction's row of the table, and the dispatch agrees with the row. -/
theorem decodeOfEncodeIsIdentity : Obligations.DecodeOfEncodeIsIdentity := fun i _ => decode_encode i

/-- Settles O3: it is one of the two answers of the dispatch. -/
theorem encodeOfDecodeIsIdentity : Obligations.EncodeOfDecodeIsIdentity := fun _ _ => encode_of_decode

/-- Settles O4: where a row is found, the dispatch decodes as that row; where none is, an instruction the dispatch decoded would have
its row accept the opcode. -/
theorem dispatchAgreesWithOpcodeTable : Obligations.DispatchAgreesWithOpcodeTable := by
  intro op
  cases hfind : opcodeTable.find? (fun r => r.accepts op) with
  | some r =>
    rw [tableDecode, hfind]
    exact decode_of_accepts (List.mem_of_find?_eq_some hfind) (List.find?_some (p := (OpcodeRow.accepts · op)) hfind)
  | none =>
    rw [tableDecode, hfind]
    cases hd : decode op with
    | ok i =>
      obtain ⟨-, r, hr, hacc, -⟩ := encodingRow i
      rw [encode_of_decode hd] at hacc
      exact absurd hacc (List.find?_eq_none.mp hfind r (List.mem_of_getElem? hr))
    | error e =>
      cases hd ▸ decode_answers op
      rfl

/-- Settles O6: the dispatch answers an instruction or a refusal, and refuses only what R52 lists. -/
theorem refusedOpcodesAreTheListedFamilies : Obligations.RefusedOpcodesAreTheListedFamilies := fun op =>
  ⟨(decode_answers op).eq_refusal, (decode_answers op).exists_ok⟩

/-- Settles O1 by evaluating the decoder on the words. -/
theorem specWordsDecode : Obligations.SpecWordsDecode := by
  unfold Obligations.SpecWordsDecode
  decide

end Sys2Proof

/-! PROOFS of the statements about screen and flow control (spec/40_screen_flow.md R60 to R68). What an instruction leaves unchanged is
read off its list of written parts (`exec_writes`); the value it gives pc, sp and the stack off the one state it answers. -/

namespace Sys2Proof.Machine

section
variable {s t : State} {nnn : Addr12}

/-- The frame of an instruction, for any list that holds the parts it writes. -/
theorem exec_onlyChanges {i : Instr} {ps : List Part} (h : exec i s = .next t) (hps : writtenParts i ⊆ ps) :
    OnlyChanges ps s t :=
  ((exec_writes h).mono hps (List.Subset.refl _)).onlyChanges

/-! ### RET and CALL (R61, R63) -/

theorem execRet_of_pos (h : s.sp.val ≠ 0) : exec .ret s =
    .next (({ s with sp := ⟨s.sp.val - 1, by omega⟩ } : State).setPc (s.stack[s.sp.val - 1]'(by omega))) := by
  simp only [exec, execRet, State.pop, dif_neg h]

theorem execRet_of_empty (h : s.sp.val = 0) : exec .ret s = .fault (.stackUnderflow s.instrAddr (encode .ret)) := by
  simp only [exec, execRet, State.pop, dif_pos h, raise]

/-- A `RET` after a `CALL`, whatever pc it is run at, answers the state before the `CALL` but for the slot pushed to (R21). -/
theorem execRet_of_execCall (hlt : s.sp.val < 16) (h : exec (.call nnn) s = .next t) (p : Word) :
    exec .ret { t with pc := p } = .next { s with stack := s.stack.set s.sp.val s.pc hlt } := by
  obtain ⟨-, rfl⟩ := execCall_next h
  rw [execRet_of_pos (Nat.succ_ne_zero s.sp.val)]
  simp [State.setPc]

/-! ### Jumps (R62, R68) -/

theorem zextAddr_add_zextByte_toNat (a : Addr12) (b : Byte) : (zextAddr a + zextByte b).toNat = a.toNat + b.toNat := by
  rw [BitVec.toNat_add_of_lt, zextAddr_toNat, zextByte_toNat]
  rw [zextAddr_toNat, zextByte_toNat]
  omega

/-- The jump undoes the fetch advance, so a Step at a self-jump answers the state it began in (R62). -/
theorem step_of_selfJump (hf : s.fetchable = true) (htarget : zextAddr nnn = s.pc)
    (hop : s.opcodeAtPc = encode (.jp nnn)) : step s = .next s :=
  calc step s
    _ = exec (.jp nnn) s.advancePc := step_of_decode hf (by rw [hop, decode_encode])
    _ = .next (s.setPc (zextAddr nnn)) := rfl
    _ = .next s := by rw [htarget]; rfl

/-! ### Skips (R64 to R67) -/

theorem skipIf_beq_pc (a b : Byte) : (s.skipIf (a == b)).pc = if a = b then s.pc + 2#16 else s.pc := by
  simp only [State.skipIf_pc, beq_iff_eq]

theorem skipIf_bne_pc (a b : Byte) : (s.skipIf (a != b)).pc = if a = b then s.pc else s.pc + 2#16 := by
  simp only [State.skipIf_pc, bne_iff_ne, ite_not]

end

/-- Settles O18: the `RET` answers the state before the `CALL` with the pushed slot set. -/
theorem retUndoesCall : Obligations.RetUndoesCall := by
  intro s nnn p hlt
  have hcall := execCall_of_lt nnn hlt
  refine ⟨_, _, hcall, execRet_of_execCall hlt hcall p, rfl, rfl, ?slot, fun k hk => ?others, ?frame⟩
  case slot => exact Vector.getElem?_set_self hlt
  case others => exact Vector.getElem?_set_ne hlt hk.symm
  case frame => exact (Writes.of_untouched (ps := [.stack]) (s := s)).onlyChanges

/-- Settles O21: a 12-bit target equal to pc as a number is pc. -/
theorem selfJumpLeavesStateUnchanged : Obligations.SelfJumpLeavesStateUnchanged := fun _ nnn hpc htarget hop =>
  step_of_selfJump (State.fetchable_iff.mpr hpc) (BitVec.eq_of_toNat_eq ((zextAddr_toNat nnn).trans htarget)) hop

/-- Settles O14: the new framebuffer is the blank one. -/
theorem clsBlanksScreen : Obligations.ClsBlanksScreen := fun s =>
  ⟨_, rfl, Framebuffer.cell_blank, (writes_setFb s _).onlyChanges⟩

/-- Settles O15, by whether a return address is held. -/
theorem retPopsIntoPc : Obligations.RetPopsIntoPc := by
  refine fun s => ⟨execRet_of_empty, fun hpos => ?_⟩
  have hret := execRet_of_pos (Nat.ne_of_gt hpos)
  exact ⟨_, hret, rfl, Vector.getElem?_eq_getElem _, exec_onlyChanges hret (by simp [writtenParts])⟩

/-- Settles O16: the target is nnn, zero-extended. -/
theorem jpSetsPc : Obligations.JpSetsPc := fun s nnn =>
  ⟨_, rfl, zextAddr_toNat nnn, (writes_setPc s _).onlyChanges⟩

/-- Settles O17, by whether a slot is free. -/
theorem callPushesAndJumps : Obligations.CallPushesAndJumps := by
  refine fun s nnn => ⟨fun hfull => execCall_of_full nnn hfull.not_lt, fun hlt => ?_⟩
  have hcall := execCall_of_lt nnn hlt
  refine ⟨_, hcall, ?slot, fun k hk => ?others, rfl, zextAddr_toNat nnn, exec_onlyChanges hcall (by simp [writtenParts])⟩
  case slot => exact Vector.getElem?_set_self hlt
  case others => exact Vector.getElem?_set_ne hlt hk.symm

/-- Settles O19: each of the four is a skip on an equality or an inequality of two bytes. -/
theorem comparesSkipOnTheirCondition : Obligations.ComparesSkipOnTheirCondition := fun s x y kk =>
  ⟨⟨_, rfl, (writes_skipIf s _).onlyChanges, skipIf_beq_pc (s.reg x) kk⟩,
    ⟨_, rfl, (writes_skipIf s _).onlyChanges, skipIf_bne_pc (s.reg x) kk⟩,
    ⟨_, rfl, (writes_skipIf s _).onlyChanges, skipIf_beq_pc (s.reg x) (s.reg y)⟩,
    ⟨_, rfl, (writes_skipIf s _).onlyChanges, skipIf_bne_pc (s.reg x) (s.reg y)⟩⟩

/-- Settles O20: 12 bits plus 8 bits do not fill pc's 16. -/
theorem jpV0AddsV0 : Obligations.JpV0AddsV0 := fun s nnn =>
  ⟨_, rfl, zextAddr_add_zextByte_toNat nnn _, (writes_setPc s _).onlyChanges⟩

end Sys2Proof.Machine

/-! PROOFS of the statements about loads, arithmetic, logic and shifts (spec/41_alu.md R70 to R83). An instruction that sets a flag
writes it after its result or, for the two shifts, before (R81); what the registers read is said once for each order, and what remains
is arithmetic on bytes. -/

namespace Sys2Proof.Machine

/-! ### The two orders of result and flag (R81) -/

section
variable {s : State}

/-- What a transition leaves unchanged, as the statements ask for it. -/
theorem Writes.frames {t : State} {ps : List Part} {rs : List Nibble} (h : Writes ps rs s t) :
    OnlyRegsChange rs s t ∧ OnlyChanges ps s t :=
  ⟨h.onlyRegsChange, h.onlyChanges⟩

/-- Result, then flag (R81 a): a destination other than VF keeps the result, and VF ends as the flag whatever the destination. -/
theorem setResultThenFlag_spec (s : State) (x : Nibble) (r f : Byte) :
    (x ≠ vf → (s.setResultThenFlag x r f).reg x = r) ∧ (s.setResultThenFlag x r f).reg vf = f ∧
      OnlyRegsChange [x, vf] s (s.setResultThenFlag x r f) ∧ OnlyChanges [.v] s (s.setResultThenFlag x r f) := by
  refine ⟨fun hx => ?result, ?flag, (writes_setResultThenFlag s x r f).frames⟩
  case result => rw [State.reg_setResultThenFlag, if_neg hx, if_pos rfl]
  case flag => rw [State.reg_setResultThenFlag, if_pos rfl]

/-- The flag to VF, then Vx read again and updated by `g` (R81 b). -/
def State.setFlagThenUpdate (s : State) (x : Nibble) (f : Byte) (g : Byte → Byte) : State :=
  (s.setFlag f).setReg x (g ((s.setFlag f).reg x))

theorem exec_shrReg (x y : Nibble) (s : State) :
    exec (.shrReg x y) s = .next (s.setFlagThenUpdate x (lowBitFlag (s.reg x)) (· >>> 1)) := rfl

theorem exec_shlReg (x y : Nibble) (s : State) :
    exec (.shlReg x y) s = .next (s.setFlagThenUpdate x (highBitFlag (s.reg x)) (· <<< 1)) := rfl

theorem writes_setFlagThenUpdate (s : State) (x : Nibble) (f : Byte) (g : Byte → Byte) :
    Writes [.v] [x, vf] s (s.setFlagThenUpdate x f g) :=
  ((writes_setReg s vf f).trans (writes_setReg _ x _)).mono (by simp) (by simp)

/-- A destination other than VF is updated from its old value, and VF keeps the flag. -/
theorem reg_setFlagThenUpdate_of_ne {x : Nibble} (hx : x ≠ vf) (f : Byte) (g : Byte → Byte) :
    (s.setFlagThenUpdate x f g).reg x = g (s.reg x) ∧ (s.setFlagThenUpdate x f g).reg vf = f := by
  constructor
  · rw [State.setFlagThenUpdate, State.reg_setReg_same, State.reg_setFlag, if_neg hx]
  · rw [State.setFlagThenUpdate, State.reg_setReg_ne _ _ _ _ hx.symm, State.reg_setFlag, if_pos rfl]

/-- VF as the destination ends as the updated flag (D9). -/
theorem reg_setFlagThenUpdate_vf (f : Byte) (g : Byte → Byte) : (s.setFlagThenUpdate vf f g).reg vf = g f := by
  rw [State.setFlagThenUpdate, State.reg_setReg_same, State.reg_setFlag, if_pos rfl]

end

/-! ### Flags and wrapped results as numbers (R76 to R80) -/

section
variable (a b : Byte)

theorem flagByte_decide (p : Prop) [Decidable p] : flagByte (decide p) = if p then 0x01#8 else 0x00#8 := by
  simp only [flagByte, decide_eq_true_eq]

theorem flagByte_toNat (c : Bool) : (flagByte c).toNat = c.toNat := by
  cases c <;> rfl

theorem lowBitFlag_toNat : (lowBitFlag a).toNat = a.toNat % 2 := by
  rw [lowBitFlag, flagByte_toNat, ← BitVec.testBit_toNat, Nat.toNat_testBit, Nat.pow_zero, Nat.div_one]

theorem highBitFlag_toNat : (highBitFlag a).toNat = a.toNat / 128 := by
  have hlt : a.toNat < 256 := a.isLt
  rw [highBitFlag, flagByte_toNat, ← BitVec.testBit_toNat, Nat.toNat_testBit]
  omega

theorem sub_toNat : (a - b).toNat = (a.toNat + 256 - b.toNat) % 256 := by
  have hlt : b.toNat < 256 := b.isLt
  rw [BitVec.toNat_sub]
  omega

theorem ushiftRight_one_toNat : (a >>> 1).toNat = a.toNat / 2 := by
  rw [BitVec.toNat_ushiftRight, Nat.shiftRight_eq_div_pow, Nat.pow_one]

theorem shiftLeft_one_toNat : (a <<< 1).toNat = a.toNat * 2 % 256 := by
  rw [BitVec.toNat_shiftLeft, Nat.shiftLeft_eq, Nat.pow_one]

/-- `SHR` on VF shifts its flag out. -/
theorem lowBitFlag_ushiftRight_one : lowBitFlag a >>> 1 = 0x00#8 := by
  apply BitVec.eq_of_toNat_eq
  rw [ushiftRight_one_toNat, lowBitFlag_toNat]
  exact Nat.div_eq_of_lt (Nat.mod_lt _ Nat.two_pos)

/-- `SHL` on VF doubles its flag, which does not wrap. -/
theorem highBitFlag_shiftLeft_one_toNat : (highBitFlag a <<< 1).toNat = a.toNat / 128 * 2 := by
  have hlt : a.toNat < 256 := a.isLt
  rw [shiftLeft_one_toNat, highBitFlag_toNat]
  omega

end

/-- `a - b` to Vx, then its not-borrow to VF: `SUB` with Vx as `a`, `SUBN` with Vy (R77, R79). -/
def State.setDifference (s : State) (x : Nibble) (a b : Byte) : State := s.setResultThenFlag x (a - b) (notBorrowFlag a b)

theorem exec_subReg (x y : Nibble) (s : State) :
    exec (.subReg x y) s = .next (s.setDifference x (s.reg x) (s.reg y)) := rfl

theorem exec_subnReg (x y : Nibble) (s : State) :
    exec (.subnReg x y) s = .next (s.setDifference x (s.reg y) (s.reg x)) := rfl

/-- A difference wraps, and its flag compares the two operands as numbers. -/
theorem setDifference_spec (s : State) (x : Nibble) (a b : Byte) :
    (x ≠ vf → ((s.setDifference x a b).reg x).toNat = (a.toNat + 256 - b.toNat) % 256) ∧
      ((s.setDifference x a b).reg vf = if a.toNat ≥ b.toNat then 0x01#8 else 0x00#8) ∧
      OnlyRegsChange [x, vf] s (s.setDifference x a b) ∧ OnlyChanges [.v] s (s.setDifference x a b) := by
  obtain ⟨hresult, hflag, hframes⟩ := setResultThenFlag_spec s x (a - b) (notBorrowFlag a b)
  exact ⟨fun hx => (congrArg BitVec.toNat (hresult hx)).trans (sub_toNat a b), hflag.trans (flagByte_decide _), hframes⟩

/-- Settles O22: the one update is the write of kk to Vx. -/
theorem ldImmWritesByte : Obligations.LdImmWritesByte := fun s x kk =>
  ⟨_, rfl, State.reg_setReg_same s x kk, (writes_setReg s x kk).frames⟩

/-- Settles O23: each is one register write, of a sum of bytes and of Vy. -/
theorem addImmAndLdRegWriteVxOnly : Obligations.AddImmAndLdRegWriteVxOnly := by
  refine fun s x _ _ => ⟨⟨_, rfl, ?sum, (writes_setReg s x _).frames⟩,
    ⟨_, rfl, State.reg_setReg_same s x _, (writes_setReg s x _).frames⟩⟩
  case sum => rw [State.reg_setReg_same, BitVec.toNat_add]

/-- Settles O24: each writes its result, then the flag 0. -/
theorem logicCombinesAndResetsFlag : Obligations.LogicCombinesAndResetsFlag := fun s x _ =>
  ⟨⟨_, rfl, setResultThenFlag_spec s x _ _⟩, ⟨_, rfl, setResultThenFlag_spec s x _ _⟩,
    ⟨_, rfl, setResultThenFlag_spec s x _ _⟩⟩

/-- Settles O25: the sum of bytes wraps, and the carry compares the sum of their values. -/
theorem addRegSetsCarry : Obligations.AddRegSetsCarry := by
  intro s x y
  obtain ⟨hresult, hflag, hframes⟩ :=
    setResultThenFlag_spec s x (s.reg x + s.reg y) (carryFlag (s.reg x) (s.reg y))
  exact ⟨_, rfl, fun hx => by rw [hresult hx, BitVec.toNat_add], hflag.trans (flagByte_decide _), hframes⟩

/-- Settles O26: `SUBN` is `SUB` with the operands exchanged. -/
theorem subtractsSetNotBorrow : Obligations.SubtractsSetNotBorrow := fun s x y =>
  ⟨⟨_, exec_subReg x y s, setDifference_spec s x _ _⟩, ⟨_, exec_subnReg x y s, setDifference_spec s x _ _⟩⟩

/-- Settles O27: for each shift, by whether the destination is VF, which then holds the flag when it is shifted. -/
theorem shiftsCaptureDroppedBit : Obligations.ShiftsCaptureDroppedBit := by
  refine fun s x y =>
    ⟨⟨_, exec_shrReg x y s, fun hx => ?shrOther, fun hx => ?shrVF, (writes_setFlagThenUpdate s x _ _).frames⟩,
      ⟨_, exec_shlReg x y s, fun hx => ?shlOther, fun hx => ?shlVF, (writes_setFlagThenUpdate s x _ _).frames⟩⟩
  case shrOther =>
    obtain ⟨hresult, hflag⟩ := reg_setFlagThenUpdate_of_ne (s := s) hx (lowBitFlag (s.reg x)) (· >>> 1)
    exact ⟨by rw [hresult, ushiftRight_one_toNat], by rw [hflag, lowBitFlag_toNat]⟩
  case shrVF => rw [hx, reg_setFlagThenUpdate_vf, lowBitFlag_ushiftRight_one]
  case shlOther =>
    obtain ⟨hresult, hflag⟩ := reg_setFlagThenUpdate_of_ne (s := s) hx (highBitFlag (s.reg x)) (· <<< 1)
    exact ⟨by rw [hresult, shiftLeft_one_toNat], by rw [hflag, highBitFlag_toNat]⟩
  case shlVF => rw [hx, reg_setFlagThenUpdate_vf, highBitFlag_shiftLeft_one_toNat]

end Sys2Proof.Machine

/-! PROOFS of the statements about the random byte and the sprite draw (spec/42_random_draw.md R85 to R87). The loops of R86 plot cell
after cell; that no cell is plotted twice makes the whole of them one XOR with the sprite's bits, the function of R87. -/

namespace Sys2Proof.Machine

/-! ### A draw as the set of cells it flips -/

/-- From `d` to `d'` each cell of `P` has been flipped once and no other cell has changed, and a cell of `P` that was on has set the
hit. -/
def DrawState.Flips (P : Fin 32 → Fin 64 → Prop) (d d' : DrawState) : Prop :=
  (∀ row col, d'.fb.cell row col ≠ d.fb.cell row col ↔ P row col) ∧
    (d'.hit = true ↔ d.hit = true ∨ ∃ row col, d.fb.cell row col = true ∧ P row col)

section
variable {P Q : Fin 32 → Fin 64 → Prop} {d d₁ d₂ : DrawState}

theorem DrawState.flips_refl (hP : ∀ row col, ¬ P row col) : d.Flips P d :=
  ⟨fun row col => iff_of_false (· rfl) (hP row col), by simp [hP]⟩

theorem DrawState.flips_plot (row : Fin 32) (col : Fin 64) :
    d.Flips (fun r c => r = row ∧ c = col) (d.plot row col) := by
  constructor
  · intro r c
    rw [DrawState.plot, Framebuffer.cell_flip]
    by_cases h : r = row ∧ c = col <;> simp [h]
  · simp [DrawState.plot]

theorem DrawState.Flips.congr (h : d.Flips P d₁) (hQ : ∀ row col, Q row col ↔ P row col) : d.Flips Q d₁ := by
  simpa only [DrawState.Flips, hQ] using h

/-- Two draws in a row flip the cells of either when they share none: the second then finds its cells as the first did. -/
theorem DrawState.Flips.trans (h₁ : d.Flips P d₁) (h₂ : d₁.Flips Q d₂) (hdisj : ∀ row col, P row col → ¬ Q row col) :
    d.Flips (fun row col => P row col ∨ Q row col) d₂ := by
  obtain ⟨hcell₁, hhit₁⟩ := h₁
  obtain ⟨hcell₂, hhit₂⟩ := h₂
  have hfound : ∀ row col, Q row col → d₁.fb.cell row col = d.fb.cell row col := fun row col hq =>
    not_not.mp fun hne => hdisj row col ((hcell₁ row col).mp hne) hq
  constructor
  · intro row col
    change _ ↔ P row col ∨ Q row col
    rw [← hcell₁]
    by_cases hq : Q row col
    · have hne := (hcell₂ row col).mpr hq
      simpa [hq, hfound row col hq] using hne
    · have heq := not_not.mp (mt (hcell₂ row col).mp hq)
      rw [heq, or_iff_left hq]
  · have hon : ∀ row col, d₁.fb.cell row col = true ∧ Q row col ↔ d.fb.cell row col = true ∧ Q row col :=
      fun row col => and_congr_left fun hq => by rw [hfound row col hq]
    simp only [hhit₂, hhit₁, hon, and_or_left, exists_or, or_assoc]

/-- A draw is the XOR with the set it flips (R87). -/
theorem DrawState.Flips.cell_eq (h : d.Flips P d₁) (row : Fin 32) (col : Fin 64) :
    (P row col → d₁.fb.cell row col = !d.fb.cell row col) ∧ (¬ P row col → d₁.fb.cell row col = d.fb.cell row col) := by
  rw [← h.1 row col]
  exact ⟨Bool.eq_not.mpr, not_not.mp⟩

/-- A second draw of the same cells, begun with no hit, restores the screen, and hits where the first one turned a cell on. -/
theorem DrawState.Flips.twice (h₁ : d.Flips P d₁) (h₂ : DrawState.Flips P ⟨d₁.fb, false⟩ d₂) :
    d₂.fb = d.fb ∧ (d₂.hit = true ↔ ∃ row col, d.fb.cell row col = false ∧ P row col) := by
  constructor
  · refine Framebuffer.ext_cell _ _ fun row col => ?_
    by_cases hp : P row col
    · rw [(h₂.cell_eq row col).1 hp, (h₁.cell_eq row col).1 hp, Bool.not_not]
    · rw [(h₂.cell_eq row col).2 hp, (h₁.cell_eq row col).2 hp]
  · have hon : ∀ row col, d₁.fb.cell row col = true ∧ P row col ↔ d.fb.cell row col = false ∧ P row col :=
      fun row col => and_congr_left fun hp => by rw [(h₁.cell_eq row col).1 hp, Bool.not_eq_true']
    simpa [hon] using h₂.2

end

/-! ### The columns of one sprite row -/

/-- Column `c` of a sprite row falls on the cell with a bit of 1. -/
def BitCovers (b : Byte) (x0 : Nat) (row : Fin 32) (c : Nat) (r : Fin 32) (k : Fin 64) : Prop :=
  b.getLsbD (7 - c) = true ∧ r = row ∧ k = Fin.ofNat 64 (x0 + c)

/-- One of the `left` columns from `c` on falls on the cell with a bit of 1. -/
def BitsCover (b : Byte) (x0 : Nat) (row : Fin 32) (c left : Nat) (r : Fin 32) (k : Fin 64) : Prop :=
  ∃ j < left, BitCovers b x0 row (c + j) r k

section
variable {b : Byte} {x0 : Nat} {row r : Fin 32} {k : Fin 64} {c : Nat}

theorem bitsCover_succ (left : Nat) :
    BitsCover b x0 row c (left + 1) r k ↔ BitCovers b x0 row c r k ∨ BitsCover b x0 row (c + 1) left r k := by
  simp only [BitsCover, Nat.exists_lt_succ_left, Nat.add_zero, Nat.add_assoc, Nat.add_comm 1]

/-- A row is narrower than the screen, so no two of its columns wrap onto one cell. -/
theorem not_bitsCover_of_bitCovers {left : Nat} (hleft : left < 64) (h : BitCovers b x0 row c r k) :
    ¬ BitsCover b x0 row (c + 1) left r k := by
  rintro ⟨j, hj, -, -, hcol⟩
  have hmod := congrArg Fin.val (h.2.2.symm.trans hcol)
  simp only [Fin.val_ofNat] at hmod
  omega

theorem drawBit_flips (d : DrawState) :
    d.Flips (BitCovers b x0 row c) (if b.getLsbD (7 - c) then d.plot row (Fin.ofNat 64 (x0 + c)) else d) := by
  by_cases hbit : b.getLsbD (7 - c) = true
  · rw [if_pos hbit]
    exact (DrawState.flips_plot row _).congr fun _ _ => and_iff_right hbit
  · rw [if_neg hbit]
    exact DrawState.flips_refl fun _ _ h => hbit h.1

theorem drawBits_flips {left : Nat} (hleft : left ≤ 64) (d : DrawState) :
    d.Flips (BitsCover b x0 row c left) (drawBits b x0 row c left d) := by
  induction left generalizing c d with
  | zero => exact DrawState.flips_refl fun _ _ ⟨j, hj, _⟩ => Nat.not_lt_zero j hj
  | succ left ih =>
    exact ((drawBit_flips d).trans (ih (Nat.le_of_succ_le hleft) _) fun _ _ =>
      not_bitsCover_of_bitCovers hleft).congr fun _ _ => bitsCover_succ left

end

/-! ### The rows of a sprite -/

section
variable {x0 y0 : Nat} {row : Fin 32} {col : Fin 64} {b : Byte} {rest : List Byte}

theorem not_spriteCovers_nil : ¬ spriteCovers x0 y0 [] row col := fun ⟨r, _⟩ => r.elim0

theorem spriteCovers_cons : spriteCovers x0 y0 (b :: rest) row col ↔
    BitsCover b x0 (Fin.ofNat 32 y0) 0 8 row col ∨ spriteCovers x0 (y0 + 1) rest row col := by
  refine Fin.exists_fin_succ.trans (or_congr ?first ?later)
  case first =>
    constructor
    · rintro ⟨c, hrow, hcol, hbit⟩
      exact ⟨c, c.isLt, by rwa [Nat.zero_add], Fin.ext hrow, by rw [Nat.zero_add]; exact Fin.ext hcol⟩
    · rintro ⟨j, hj, hbit, hrow, hcol⟩
      rw [Nat.zero_add] at hbit hcol
      exact ⟨⟨j, hj⟩, congrArg Fin.val hrow, congrArg Fin.val hcol, hbit⟩
  case later => simp [spriteCovers, Nat.add_assoc, Nat.add_comm 1]

/-- A sprite is lower than the screen, so no two of its rows wrap onto one. -/
theorem not_spriteCovers_of_bitsCover (hrest : rest.length < 32) (h : BitsCover b x0 (Fin.ofNat 32 y0) 0 8 row col) :
    ¬ spriteCovers x0 (y0 + 1) rest row col := by
  obtain ⟨_, _, _, hrow, _⟩ := h
  rintro ⟨r, _, hrow', -, -⟩
  have hmod := (congrArg Fin.val hrow).symm.trans hrow'
  simp only [Fin.val_ofNat] at hmod
  omega

theorem drawRows_flips {r : Nat} {rows : List Byte} (hrows : rows.length ≤ 32) (d : DrawState) :
    d.Flips (spriteCovers x0 (y0 + r) rows) (drawRows x0 y0 r rows d) := by
  induction rows generalizing r d with
  | nil => exact DrawState.flips_refl fun _ _ => not_spriteCovers_nil
  | cons b rest ih =>
    exact ((drawBits_flips (by decide) d).trans (ih (r := r + 1) (Nat.le_of_succ_le hrows) _) fun _ _ =>
      not_spriteCovers_of_bitsCover (y0 := y0 + r) hrows).congr fun _ _ => spriteCovers_cons

theorem drawSprite_flips {rows : List Byte} (hrows : rows.length ≤ 32) (f : Framebuffer) :
    DrawState.Flips (spriteCovers x0 y0 rows) ⟨f, false⟩ (drawSprite f x0 y0 rows) :=
  drawRows_flips hrows _

theorem drawSprite_hit_iff {rows : List Byte} (hrows : rows.length ≤ 32) (f : Framebuffer) :
    (drawSprite f x0 y0 rows).hit = true ↔ ∃ row col, f.cell row col = true ∧ spriteCovers x0 y0 rows row col := by
  simpa using (drawSprite_flips hrows f).2

end

/-- Settles O29: the bound of 15 rows is needed only to stay within the 32 of the screen. -/
theorem drawLoopsComputeXorFunction : Obligations.DrawLoopsComputeXorFunction := fun f _ _ _ hlen =>
  have hrows := hlen.trans (by decide)
  ⟨(drawSprite_flips hrows f).cell_eq, drawSprite_hit_iff hrows f⟩

/-! ### DRW (R86) -/

theorem collisionFlag_eq_one_iff (hit : Bool) : collisionFlag hit = 0x01#8 ↔ hit = true := by
  cases hit <;> decide

theorem collisionFlag_eq_zero_iff (hit : Bool) : collisionFlag hit = 0x00#8 ↔ ¬ hit = true := by
  cases hit <;> decide

/-- What `DRW` draws on the screen of `s`. -/
def State.drawn (s : State) (x y n : Nibble) : DrawState :=
  drawSprite s.fb ((s.reg x).toNat % 64) ((s.reg y).toNat % 32) (s.mem.readBytes s.i.toNat n.toNat)

/-- The cells it draws on. -/
abbrev State.DrwCovers (s : State) (x y n : Nibble) : Fin 32 → Fin 64 → Prop :=
  spriteCovers ((s.reg x).toNat % 64) ((s.reg y).toNat % 32) (s.mem.readBytes s.i.toNat n.toNat)

/-- The state `DRW` answers. -/
def State.afterDrw (s : State) (x y n : Nibble) : State :=
  (s.setFb (s.drawn x y n).fb).setFlag (collisionFlag (s.drawn x y n).hit)

section
variable (s : State) (x y n : Nibble)

theorem execDrw_of_dataInMemory (hin : s.dataInMemory n.toNat = true) :
    exec (.drw x y n) s = .next (s.afterDrw x y n) := if_pos hin

theorem State.drawn_flips : DrawState.Flips (s.DrwCovers x y n) ⟨s.fb, false⟩ (s.drawn x y n) :=
  drawSprite_flips (by rw [Memory.length_readBytes]; omega) s.fb

theorem State.drawn_hit_iff :
    (s.drawn x y n).hit = true ↔ ∃ row col, s.fb.cell row col = true ∧ s.DrwCovers x y n row col :=
  drawSprite_hit_iff (by rw [Memory.length_readBytes]; omega) s.fb

theorem State.reg_vf_afterDrw : (s.afterDrw x y n).reg vf = collisionFlag (s.drawn x y n).hit := by
  rw [State.afterDrw, State.reg_setFlag, if_pos rfl]

/-- Where VF is no coordinate, the flag a `DRW` leaves does not move a second one. -/
theorem State.drwCovers_afterDrw (hx : x ≠ vf) (hy : y ≠ vf) :
    (s.afterDrw x y n).DrwCovers x y n = s.DrwCovers x y n := by
  simp [State.DrwCovers, State.afterDrw, State.reg_setFlag, hx, hy]

/-- No rows draw nothing, so only the flag is written (D11). -/
theorem execDrw_noRows : exec (.drw x y 0x0#4) s = .next (s.setFlag 0x00#8) := by
  rw [execDrw_of_dataInMemory s x y 0x0#4 rfl]
  rfl

end

/-- Settles O30: within memory `DRW` answers the state with the sprite drawn, and VF is the draw's hit. -/
theorem drwDrawsSpriteAndSetsCollision : Obligations.DrwDrawsSpriteAndSetsCollision := by
  intro s x y n hin
  have hexec := execDrw_of_dataInMemory s x y n ((s.dataInMemory_iff _).mpr hin)
  refine ⟨_, hexec, (s.drawn_flips x y n).cell_eq, fun hhit => ?hit, fun hmiss => ?miss, (exec_writes hexec).frames⟩
  case hit => rwa [State.reg_vf_afterDrw, collisionFlag_eq_one_iff, State.drawn_hit_iff]
  case miss => rwa [State.reg_vf_afterDrw, collisionFlag_eq_zero_iff, State.drawn_hit_iff]

/-- Settles O32: with neither coordinate in VF, the second `DRW` flips the cells the first one did. -/
theorem drawingTwiceRestoresScreen : Obligations.DrawingTwiceRestoresScreen := by
  intro s x y n hx hy hin
  have hsafe := (s.dataInMemory_iff _).mpr hin
  have hsecond := (s.afterDrw x y n).drawn_flips x y n
  rw [State.drwCovers_afterDrw s x y n hx hy] at hsecond
  obtain ⟨hfb, hhit⟩ := (s.drawn_flips x y n).twice hsecond
  refine ⟨_, _, execDrw_of_dataInMemory s x y n hsafe, execDrw_of_dataInMemory _ x y n hsafe, hfb, ?_⟩
  rw [State.reg_vf_afterDrw, collisionFlag_eq_one_iff]
  exact hhit

/-- Settles O28: the one register write is of the masked byte, and the draw is counted after it. -/
theorem rndMasksOneDrawnByte : Obligations.RndMasksOneDrawnByte := by
  intro s x kk
  have hreg := State.reg_setReg_same s x (Config.rnd s.draws &&& kk)
  refine ⟨_, rfl, hreg, fun b hb => ?mask, rfl, ((writes_setReg s x _).trans (writes_countDraw _)).frames⟩
  case mask => rw [rndWith, State.reg_countDraw, hreg, BitVec.getLsbD_and, hb, Bool.and_false]

/-- Settles O31: the check passes an empty range whatever I holds, and the draw of no rows leaves the flag write alone. -/
theorem drwOfNoRowsClearsFlag : Obligations.DrwOfNoRowsClearsFlag := fun s x y =>
  ⟨_, execDrw_noRows s x y, State.reg_setReg_same s vf _, (writes_setReg s vf _).frames⟩

end Sys2Proof.Machine

/-! PROOFS of the statements about keys and timers (spec/43_keys_timers.md R90 to R96). What the key latch answers is said once, for the
key a byte names and for the lowest pressed key; who may write a timer is read off the lists of written parts (`exec_writes`). -/

namespace Sys2Proof.Machine

/-! ### What the key latch answers (R90, R92) -/

section
variable {s : State} {k x : Nibble}

/-- The key a byte names is an entry of the latch; above 15 there is no such entry (R90). -/
theorem State.keyPressed_iff {b : Byte} : s.keyPressed b = true ↔ s.key[b.toNat]? = some true := by
  obtain hb | hb := Nat.lt_or_ge b.toNat 16
  · have hnum : (b.setWidth 4).toNat = b.toNat := by rw [BitVec.toNat_setWidth, Nat.mod_eq_of_lt hb]
    simp [State.keyPressed, State.keyAt, hnum, hb, Nat.le_of_lt_succ hb]
  · simp [State.keyPressed, Nat.not_le_of_lt hb, Nat.not_lt_of_le hb]

theorem skipIf_keyPressed_pc (b : Byte) :
    (s.skipIf (s.keyPressed b)).pc = if s.key[b.toNat]? = some true then s.pc + 2#16 else s.pc := by
  simp only [State.skipIf_pc, State.keyPressed_iff]

theorem skipIf_not_keyPressed_pc (b : Byte) :
    (s.skipIf (!s.keyPressed b)).pc = if s.key[b.toNat]? = some true then s.pc else s.pc + 2#16 := by
  simp only [State.skipIf_pc, Bool.not_eq_true', ← Bool.not_eq_true, State.keyPressed_iff, ite_not]

theorem State.lowestKey_eq_none (hreleased : ∀ k, s.keyAt k = false) : s.lowestKey = none := by
  obtain ⟨j, -, hj, -⟩ | ⟨hnone, -⟩ := s.lowestKey_spec
  · simp [hreleased j] at hj
  · exact hnone

/-- Of two keys that are both lowest, neither is below the other. -/
theorem State.lowestKey_eq_some (hk : s.keyAt k = true) (hlow : ∀ j : Nibble, j.toNat < k.toNat → s.keyAt j = false) :
    s.lowestKey = some k := by
  obtain ⟨j, hsome, hj, hjlow⟩ | ⟨-, hreleased⟩ := s.lowestKey_spec
  · have hle : k.toNat ≤ j.toNat := Nat.le_of_not_lt fun hlt => by simp [hlow j hlt] at hj
    have hge : j.toNat ≤ k.toNat := Nat.le_of_not_lt fun hlt => by simp [hjlow k hlt] at hk
    rw [hsome, BitVec.eq_of_toNat_eq (Nat.le_antisymm hge hle)]
  · simp [hreleased k] at hk

/-! ### LD Vx, K (R92) -/

theorem execLdVxK_of_released (x : Nibble) (hreleased : ∀ k, s.keyAt k = false) :
    exec (.ldVxK x) s = .next s.rewindPc := by
  simp only [exec, execLdVxK, State.lowestKey_eq_none hreleased]

theorem execLdVxK_of_lowest (x : Nibble) (hk : s.keyAt k = true)
    (hlow : ∀ j : Nibble, j.toNat < k.toNat → s.keyAt j = false) :
    exec (.ldVxK x) s = .next (s.setReg x (k.setWidth 8)) := by
  simp only [exec, execLdVxK, State.lowestKey_eq_some hk hlow]

theorem State.rewindPc_advancePc : s.advancePc.rewindPc = s := by
  rw [State.advancePc, State.rewindPc, State.setPc_pc, BitVec.add_sub_cancel]; rfl

/-- The indication of R111 holds where a key wait is about to run and no key is pressed. -/
theorem State.awaitingKey_of_decode (hf : s.fetchable = true) (hd : decode s.opcodeAtPc = .ok (.ldVxK x))
    (hreleased : ∀ k, s.keyAt k = false) : s.awaitingKey = true := by
  simp only [State.awaitingKey, hf, State.lowestKey_eq_none hreleased, hd, isKeyWait, Option.isNone_none, Bool.and_self]

end

/-- Settles O35: the key wait rewinds pc by what the fetch advanced it, and writes nothing else. -/
theorem keyWaitStepLeavesStateUnchanged : Obligations.KeyWaitStepLeavesStateUnchanged := by
  intro s x hpc hop hreleased
  have hf := State.fetchable_iff.mpr hpc
  have hd : decode s.opcodeAtPc = .ok (.ldVxK x) := (congrArg decode hop).trans (decode_encode _)
  have hstep : step s = .next s :=
    calc step s
      _ = exec (.ldVxK x) s.advancePc := step_of_decode hf hd
      _ = .next s.advancePc.rewindPc := execLdVxK_of_released x hreleased
      _ = .next s := by rw [State.rewindPc_advancePc]
  exact ⟨hstep, State.awaitingKey_of_decode hf hd hreleased⟩

/-- Settles O37: but for the two loads of a timer, no instruction's list names one. -/
theorem executorNeverCountsTimersDown : Obligations.ExecutorNeverCountsTimersDown := by
  intro i s t h
  cases i with
  | ldDtVx x => cases h; exact ⟨.inr ⟨x, rfl, rfl⟩, .inl rfl⟩
  | ldStVx x => cases h; exact ⟨.inl rfl, .inr ⟨x, rfl, rfl⟩⟩
  | _ =>
    have hdt : t.dt = s.dt := (exec_writes h).untouched .dt (by simp [writtenParts])
    have hst : t.st = s.st := (exec_writes h).untouched .st (by simp [writtenParts])
    exact ⟨.inl hdt, .inl hst⟩

/-- Settles O33: each is a skip on the latch entry Vx names, `SKNP` on its negation. -/
theorem keySkipsFollowLatch : Obligations.KeySkipsFollowLatch := fun s x =>
  have hskp := skipIf_keyPressed_pc (s := s) (s.reg x)
  have hsknp := skipIf_not_keyPressed_pc (s := s) (s.reg x)
  ⟨⟨_, rfl, (writes_skipIf s _).onlyChanges, fun hk => hskp.trans (if_pos hk), fun hk => hskp.trans (if_neg hk)⟩,
    ⟨_, rfl, (writes_skipIf s _).onlyChanges, fun hk => hsknp.trans (if_pos hk), fun hk => hsknp.trans (if_neg hk)⟩⟩

/-- Settles O34, by the two answers of the key scan. -/
theorem keyWaitStoresLowestPressed : Obligations.KeyWaitStoresLowestPressed := by
  refine fun s x => ⟨fun hreleased => ?released, fun k hk hlow => ?pressed⟩
  case released => exact ⟨_, execLdVxK_of_released x hreleased, rfl, (writes_setPc s _).onlyChanges⟩
  case pressed =>
    refine ⟨_, execLdVxK_of_lowest x hk hlow, ?_, (writes_setReg s x _).frames⟩
    rw [State.reg_setReg_same, BitVec.toNat_setWidth_of_le (by decide)]

/-- Settles O36: each is one named update, with the value copied. -/
theorem timerAccessesCopy : Obligations.TimerAccessesCopy := fun s x =>
  ⟨⟨_, rfl, State.reg_setReg_same s x s.dt, (writes_setReg s x _).frames⟩,
    ⟨_, rfl, State.setDt_dt s _, (writes_setDt s _).onlyChanges⟩,
    ⟨_, rfl, State.setSt_st s _, (writes_setSt s _).onlyChanges⟩⟩

end Sys2Proof.Machine

/-! PROOFS of the statements about the index register and memory (spec/44_index_memory.md R100 to R105). The word I is given is said as
a number, and what an access inside memory answers is said once for each of `LD B` and the register load (the register dump's is above);
a frame is read off the list of written parts. -/

namespace Sys2Proof.Machine

/-! ### What I is given (R102, R104, R105) -/

section
variable {s : State} {x k : Nibble}

/-- Five times a byte does not fill I's 16 bits. -/
theorem fontAddr_toNat (b : Byte) : (fontAddr b).toNat = b.toNat * 5 := by
  have hlt : b.toNat < 256 := b.isLt
  rw [fontAddr, Config.fontStride, BitVec.toNat_ofNat]
  omega

/-- I advances without wrapping when the range it passes lies in memory. -/
theorem State.indexAfter_toNat (hin : s.i.toNat + x.toNat ≤ 0xFFF) :
    (s.indexAfter x).toNat = if s.indexIncrement = true then s.i.toNat + x.toNat + 1 else s.i.toNat := by
  rw [State.indexAfter, apply_ite BitVec.toNat, BitVec.toNat_ofNat, Nat.mod_eq_of_lt (by omega)]

/-! ### Accesses inside memory (R103, R105) -/

/-- The bounds check passes when the last of the `n + 1` bytes lies in memory (R36). -/
theorem State.dataInMemory_of_le {n : Nat} (hin : s.i.toNat + n ≤ 0xFFF) : s.dataInMemory (n + 1) = true :=
  (s.dataInMemory_iff _).mpr fun ⟨_, hout⟩ => hin.not_gt hout

theorem bcdDigits_toNat (b : Byte) :
    (bcdDigits b).map BitVec.toNat = [b.toNat / 100, b.toNat / 10 % 10, b.toNat % 10] := by
  have hlt : b.toNat < 256 := b.isLt
  simp only [bcdDigits, List.map_cons, List.map_nil, BitVec.toNat_ofNat, List.cons.injEq, and_true]
  omega

/-- What `LD B, Vx` leaves in memory (R103). -/
def State.memAfterBcd (s : State) (x : Nibble) : Memory := s.mem.writeBytes s.i.toNat (bcdDigits (s.reg x))

theorem execLdB_of_le (hin : s.i.toNat + 2 ≤ 0xFFF) : exec (.ldB x) s = .next (s.setMem (s.memAfterBcd x)) :=
  if_pos (State.dataInMemory_of_le hin)

/-- The three addresses read the three decimal digits. -/
theorem State.read_memAfterBcd (hw : s.mem.wf = true) (hin : s.i.toNat + 2 ≤ 0xFFF) (j : Nat) (hj : j < 3) :
    ((s.memAfterBcd x).read (s.i.toNat + j)).toNat =
      [(s.reg x).toNat / 100, (s.reg x).toNat / 10 % 10, (s.reg x).toNat % 10][j] := by
  have hlen : j < (bcdDigits (s.reg x)).length := hj
  have hend : s.i.toNat + (bcdDigits (s.reg x)).length ≤ Config.memSize := by
    rw [length_bcdDigits, Config.memSize]; omega
  calc ((s.memAfterBcd x).read (s.i.toNat + j)).toNat
    _ = (bcdDigits (s.reg x))[j].toNat := congrArg BitVec.toNat (Memory.read_writeBytes_inside _ _ _ j hlen hend hw)
    _ = ((bcdDigits (s.reg x)).map BitVec.toNat)[j]'hj := (List.getElem_map BitVec.toNat).symm
    _ = _ := by simp only [bcdDigits_toNat]

/-- The state a register load answers (R105). -/
def State.afterLoad (s : State) (x : Nibble) : State :=
  { s with v := loadRegs s.mem s.i.toNat (regCount x) s.v, i := s.indexAfter x }

theorem execLdVxMem_of_le (hin : s.i.toNat + x.toNat ≤ 0xFFF) : exec (.ldVxMem x) s = .next (s.afterLoad x) :=
  if_pos (State.dataInMemory_of_le hin)

/-- A register load writes V0 to Vx from memory and no other register. -/
theorem State.reg_afterLoad :
    (s.afterLoad x).reg k = if k.toNat ≤ x.toNat then s.mem.read (s.i.toNat + k.toNat) else s.reg k := by
  simp only [State.reg, State.afterLoad, getElem_loadRegs, regCount, Nat.lt_succ_iff]

end

/-- Settles O40: the digits stand at their three addresses, and a store leaves what is outside its run. -/
theorem ldBStoresDecimalDigits : Obligations.LdBStoresDecimalDigits := by
  intro s x hw hin
  have hread := State.read_memAfterBcd (x := x) hw hin
  exact ⟨_, execLdB_of_le hin, hread 0 (by decide), hread 1 (by decide), hread 2 (by decide),
    Memory.read_writeBytes_outside (bcdDigits (s.reg x)) s.mem s.i.toNat, (writes_setMem s _).onlyChanges⟩

/-- Settles O41: each register stands at its address, and a store of x + 1 bytes leaves what is outside its run. -/
theorem registerDumpStoresV0ToVx : Obligations.RegisterDumpStoresV0ToVx := by
  intro s x hw hin
  have hdump := execLdMemVx_of_le hin
  refine ⟨_, hdump, fun k hk => State.read_memAfterDump hw hin hk, fun a ha => ?outside, State.indexAfter_toNat hin,
    exec_onlyChanges hdump (by simp [writtenParts])⟩
  case outside =>
    exact Memory.read_writeBytes_outside _ _ _ a (by rw [State.length_regsUpTo, ← Nat.add_assoc]; exact ha)

/-- Settles O42, by whether the register is among V0 to Vx. -/
theorem registerLoadReadsV0ToVx : Obligations.RegisterLoadReadsV0ToVx := by
  intro s x hin
  have hload := execLdVxMem_of_le hin
  exact ⟨_, hload, fun k hk => State.reg_afterLoad.trans (if_pos hk),
    fun k hk => State.reg_afterLoad.trans (if_neg hk.not_ge), State.indexAfter_toNat hin,
    exec_onlyChanges hload (by simp [writtenParts])⟩

/-- Settles O43: the load reads the bytes that the dump stored at the same addresses. -/
theorem loadAfterDumpRestoresRegisters : Obligations.LoadAfterDumpRestoresRegisters := by
  intro s x hw hin
  refine ⟨_, execLdMemVx_of_le hin, fun w => ⟨_, execLdVxMem_of_le hin, fun k hk => ?_⟩⟩
  exact (State.reg_afterLoad.trans (if_pos hk)).trans (State.read_memAfterDump hw hin hk)

/-- Settles O38: the new value of I is nnn, zero-extended. -/
theorem ldISetsIndex : Obligations.LdISetsIndex := fun s nnn =>
  ⟨_, rfl, zextAddr_toNat nnn, (writes_setI s _).onlyChanges⟩

/-- Settles O39: each gives I one value; the sum is of words, and five times a byte is at most 1275. -/
theorem addIAndLdFSetIndex : Obligations.AddIAndLdFSetIndex := by
  refine fun s x => ⟨⟨_, rfl, ?sum, (writes_setI s _).onlyChanges⟩,
    ⟨_, rfl, fontAddr_toNat (s.reg x), ?bound, (writes_setI s _).onlyChanges⟩⟩
  case sum => rw [State.setI_i, BitVec.toNat_add, zextByte_toNat]
  case bound =>
    have hlt : (s.reg x).toNat < 256 := (s.reg x).isLt
    rw [State.setI_i, fontAddr_toNat]
    omega

end Sys2Proof.Machine

/-! PROOFS of the statements about the host operations (spec/49_host_operations.md R110 to R114). What a fault records is said once for
the instructions (`exec_fault`) and once for the Step; each other operation is shown to be named updates, whose frames give its own. -/

namespace Sys2Proof.Machine

/-! ### What a fault records (R110, R120) -/

section
variable {i : Instr} {s : State} {f : Fault}

/-- A failed bounds check raises the fault named, at the instruction's address and with its opcode. -/
theorem fault_of_checked {c : Bool} {u : State} {g : Word → Word → Fault}
    (h : (if c then .next u else raise g i s) = Host.Outcome.fault f) : f = g s.instrAddr (encode i) := by
  cases c with
  | true => cases h
  | false => exact (Host.Outcome.fault.inj h).symm

/-- Whichever fault an instruction raises, it records the instruction's address and opcode; six instructions can raise one. -/
theorem exec_fault (h : exec i s = .fault f) : f.addr = s.instrAddr ∧ f.opcode = some (encode i) := by
  cases i with
  | ret =>
    by_cases h0 : s.sp.val = 0
    · rw [execRet_of_empty h0] at h; cases h; exact ⟨rfl, rfl⟩
    · rw [execRet_of_pos h0] at h; cases h
  | call nnn =>
    by_cases hlt : s.sp.val < 16
    · rw [execCall_of_lt nnn hlt] at h; cases h
    · rw [execCall_of_full nnn hlt] at h; cases h; exact ⟨rfl, rfl⟩
  | drw | ldB | ldMemVx | ldVxMem => cases fault_of_checked h; exact ⟨rfl, rfl⟩
  | ldVxK =>
    simp only [exec, execLdVxK] at h
    cases hk : s.lowestKey <;> rw [hk] at h <;> cases h
  | _ => cases h

end

/-- While a meaning runs, the instruction's address is the pc the cycle began at. -/
theorem State.instrAddr_advancePc (s : State) : s.advancePc.instrAddr = s.pc := by
  rw [State.instrAddr, State.advancePc_pc, BitVec.add_sub_cancel]

/-- Settles O11: a fetch or decode fault records the two itself; an instruction's fault records the encoding of the instruction, which
is the word it was decoded from. -/
theorem faultRecordsAddressAndOpcode : Obligations.FaultRecordsAddressAndOpcode := by
  intro s f h
  rw [step] at h
  rcases cycle_spec s with ⟨hf, hc⟩ | ⟨hf, -, hc⟩ | ⟨hf, i, hd, hc⟩ <;> rw [hc] at h
  · cases h
    exact ⟨rfl, (if_neg (of_decide_eq_false hf)).symm⟩
  · cases h
    exact ⟨rfl, (if_pos (State.fetchable_iff.mp hf)).symm⟩
  · obtain ⟨haddr, hop⟩ := exec_fault h
    rw [State.instrAddr_advancePc] at haddr
    rw [encode_of_decode hd] at hop
    exact ⟨haddr, hop.trans (if_pos (State.fetchable_iff.mp hf)).symm⟩

/-! ### LoadRom (R112) -/

/-- The state an accepted ROM leaves. -/
def State.afterLoadRom (s : State) (bytes : List Byte) : State :=
  (s.setMem (s.mem.writeBytes 0x200 bytes)).setPc 0x0200#16

section
variable (s : State) {bytes : List Byte}

theorem hostApply_loadRom_of_le (hlen : bytes.length ≤ 3584) :
    hostApply (.loadRom bytes) s = (s.afterLoadRom bytes, .ok) := by
  have hload : loadRom bytes s = some (s.afterLoadRom bytes) := if_pos (decide_eq_true hlen)
  simp only [hostApply, hload]

theorem hostApply_loadRom_of_gt (hlen : bytes.length > 3584) :
    hostApply (.loadRom bytes) s = (s, .romTooLarge) := by
  have hload : loadRom bytes s = none := if_neg fun hfits => hlen.not_ge (of_decide_eq_true hfits)
  simp only [hostApply, hload]

theorem writes_afterLoadRom (bytes : List Byte) : Writes [.mem, .pc] [] s (s.afterLoadRom bytes) :=
  (writes_setMem s _).trans (writes_setPc _ _)

end

/-- Settles O48: a ROM of at most 3584 bytes ends at or before the end of memory, so each of its bytes is read back. -/
theorem loadRomCopiesOrRejects : Obligations.LoadRomCopiesOrRejects := by
  refine fun s bytes hw => ⟨hostApply_loadRom_of_gt s, fun hlen => ⟨_, hostApply_loadRom_of_le s hlen, rfl, ?copied, ?kept,
    (writes_afterLoadRom s bytes).onlyChanges⟩⟩
  case copied =>
    intro k b hkb
    obtain ⟨hk, rfl⟩ := List.getElem?_eq_some_iff.mp hkb
    exact Memory.read_writeBytes_inside bytes s.mem 0x200 k hk (Nat.add_le_add_left hlen 0x200) hw
  case kept => exact fun a ha => Memory.read_writeBytes_outside bytes s.mem 0x200 a ha

/-! ### SetKey, and what leaves the key latch alone (R114) -/

section
variable (s : State)

theorem writes_setKey (k : Nibble) (b : Bool) : Writes [.key] [] s (setKey k b s) := .of_untouched

/-- A Step leaves the key latch, whether it completes or faults. -/
theorem hostApply_step_key : (hostApply .step s).1.key = s.key := by
  cases h : step s with
  | next t => rw [hostApply_step_next h]; exact (stepNeverWritesKeysOrStrap s t h).1
  | fault f =>
    rw [hostApply_step_fault h, stateAfterStep_of_fault h, apply_ite State.key, State.advancePc_key, ite_self]
  | refused r => simp only [hostApply, h]

/-- So does LoadRom, whether it accepts the ROM or rejects it. -/
theorem hostApply_loadRom_key (bytes : List Byte) : (hostApply (.loadRom bytes) s).1.key = s.key := by
  by_cases hlen : bytes.length ≤ 3584
  · rw [hostApply_loadRom_of_le s hlen]
    exact (writes_afterLoadRom s bytes).untouched .key (by simp)
  · rw [hostApply_loadRom_of_gt s (Nat.lt_of_not_le hlen)]

end

/-- Settles O47: the key's update for `SetKey` itself, and for the other operations one by one. -/
theorem setKeySetsOneKey : Obligations.SetKeySetsOneKey := by
  refine ⟨fun s k b => ⟨setKey k b s, rfl, ?set, fun j hj => ?other, (writes_setKey s k b).onlyChanges⟩, fun op s hop => ?latch⟩
  case set => rw [keyAt_setKey, if_pos rfl]
  case other => rw [keyAt_setKey, if_neg hj]
  case latch =>
    cases op with
    | loadRom bytes => exact hostApply_loadRom_key s bytes
    | step => exact hostApply_step_key s
    | tick => exact tick_key s
    | setKey k b => exact absurd rfl (hop k b)
    | observe => rfl

/-! ### Tick (R113) -/

theorem countDown_toNat (b : Byte) : (countDown b).toNat = b.toNat - 1 := by
  rw [countDown]
  split <;> bv_omega

theorem writes_tick (s : State) : Writes [.dt, .st] [] s (tick s) := (writes_setDt s _).trans (writes_setSt _ _)

/-- Settles O46: each timer is counted down from its own value. -/
theorem tickCountsTimersDown : Obligations.TickCountsTimersDown := fun s =>
  ⟨tick s, rfl, countDown_toNat s.dt, countDown_toNat s.st, (writes_tick s).onlyChanges⟩

end Sys2Proof.Machine

/-! PROOFS of the statements about exceptions (spec/60_exceptions.md R120 to R127). When an instruction faults is said once for each
side of its condition; what a faulting Step leaves is the one state of `stateAfterStep_of_fault`, read on either side of the fetch bound. -/

namespace Sys2Proof.Machine

/-! ### An instruction's one fault condition (R120) -/

section
variable {i : Instr} {s : State}

/-- An instruction whose condition holds faults with its code. The 28 that R120 does not name have no condition that could hold. -/
theorem exec_fault_of_condition (h : faultCondition i s = true) : ∃ f, exec i s = .fault f ∧ f.code = faultCodeOf i := by
  cases i with
  | ret => exact ⟨_, execRet_of_empty (of_decide_eq_true h), rfl⟩
  | call nnn =>
    have hfull : s.sp.val = 16 := of_decide_eq_true h
    exact ⟨_, execCall_of_full nnn (by omega), rfl⟩
  | drw x y n =>
    obtain ⟨hpos, hout⟩ := Bool.and_eq_true_iff.mp h
    exact ⟨_, checked_of_not_inMemory (of_decide_eq_true hpos) (of_decide_eq_true hout), rfl⟩
  | ldB x => exact ⟨_, checked_of_not_inMemory (Nat.succ_pos 2) (of_decide_eq_true h), rfl⟩
  | ldMemVx x | ldVxMem x => exact ⟨_, checked_of_not_inMemory (Nat.succ_pos x.toNat) (of_decide_eq_true h), rfl⟩
  | _ => cases h

/-- An instruction whose condition does not hold completes. The key wait completes on either outcome of its scan. -/
theorem exec_next_of_no_condition (h : faultCondition i s = false) : ∃ t, exec i s = .next t := by
  cases i with
  | ret => exact ⟨_, execRet_of_pos (of_decide_eq_false h)⟩
  | call nnn =>
    have hfree : ¬ s.sp.val = 16 := of_decide_eq_false h
    exact ⟨_, execCall_of_lt nnn (by omega)⟩
  | drw x y n =>
    have hin : ¬(n.toNat > 0 ∧ s.i.toNat + n.toNat - 1 > 0xFFF) := by simpa [faultCondition] using h
    exact ⟨_, execDrw_of_dataInMemory s x y n ((s.dataInMemory_iff _).mpr hin)⟩
  | ldB x => exact ⟨_, execLdB_of_le (Nat.le_of_not_gt (of_decide_eq_false h))⟩
  | ldMemVx x => exact ⟨_, execLdMemVx_of_le (Nat.le_of_not_gt (of_decide_eq_false h))⟩
  | ldVxMem x => exact ⟨_, execLdVxMem_of_le (Nat.le_of_not_gt (of_decide_eq_false h))⟩
  | ldVxK x =>
    simp only [exec, execLdVxK]
    cases s.lowestKey with
    | none => exact ⟨_, rfl⟩
    | some k => exact ⟨_, rfl⟩
  | _ => exact ⟨_, rfl⟩

end

/-- Settles O12: one lemma for each side of the condition. -/
theorem instructionFaultsExactlyOnItsCondition : Obligations.InstructionFaultsExactlyOnItsCondition :=
  fun _ _ => ⟨exec_fault_of_condition, exec_next_of_no_condition⟩

/-! ### A run with a faulted Step (R126, R150) -/

section
variable {ops : List HostOp} {s : State}

/-- Each of R150's two ends asks first that no Step faulted. -/
theorem EndCondition.not_reached_of_runFaulted (e : EndCondition) (h : runFaulted ops s = true) :
    e.reached ops s = false := by
  rw [EndCondition.reached.eq_def, h, Bool.not_true, Bool.false_and]

/-- A fault stays on the record of the run, whatever the host does next. -/
theorem runFaulted_append_of_runFaulted (more : List HostOp) (h : runFaulted ops s = true) :
    runFaulted (ops ++ more) s = true := by
  rw [runFaulted_append, h, Bool.true_or]

end

/-- Settles O59: the longer schedule holds the same faulted Step. -/
theorem faultedRunNeverEnds : Obligations.FaultedRunNeverEnds :=
  fun e _ more _ h => e.not_reached_of_runFaulted (runFaulted_append_of_runFaulted more h)

/-! ### The faulting Step (R121, R125) -/

section
variable {s : State} {f : Fault}

theorem step_of_undecoded {e : DecodeError} (hf : s.fetchable = true) (hd : decode s.opcodeAtPc = .error e) :
    step s = .fault (.unknownOpcode s.pc s.opcodeAtPc) := by
  rw [step, cycle, if_pos hf, hd]

/-- A Step that faults after its fetch leaves the fetch's advance of pc and nothing else. -/
theorem stateAfterStep_of_fault_fetched (hf : s.fetchable = true) (h : step s = .fault f) :
    stateAfterStep s = s.advancePc :=
  (stateAfterStep_of_fault h).trans (if_pos hf)

end

/-- Settles O9: the word is fetched and decoding it fails, so the fault comes after the advance of pc. -/
theorem unmatchedOpcodeFaults : Obligations.UnmatchedOpcodeFaults := by
  intro s e hpc hd
  have hf := State.fetchable_iff.mpr hpc
  have hstep := step_of_undecoded hf hd
  exact ⟨hstep, stateAfterStep_of_fault_fetched hf hstep⟩

/-- Settles O10: above the bound the Step is the fetch fault, which changes nothing; at or below it pc has been advanced. -/
theorem faultedStepLeavesAllButPc : Obligations.FaultedStepLeavesAllButPc := fun s _ h =>
  ⟨fun hpc => (fetchOutsideMemoryFaults s hpc).2, fun hpc => stateAfterStep_of_fault_fetched (State.fetchable_iff.mpr hpc) h⟩

end Sys2Proof.Machine

/-! PROOFS of the statements about reset and the end of a run (spec/70_reset_and_hazards.md R140 to R142, R150). Reset with parameters is
the default reset with the font stored from 0x000 upward and the strap set; of the host operations only LoadRom leaves a self-jump. -/

namespace Sys2Proof.Machine

/-! ### Reset and its parameters (R140, R141) -/

/-- The bytes a reset stores from 0x000 upward: the font's where one is given. -/
def fontBytes (font : Option Config.FontImage) : List Byte := font.elim [] Config.FontImage.bytes

/-- A font ends inside memory. -/
theorem length_fontBytes_le (font : Option Config.FontImage) : (fontBytes font).length ≤ Config.memSize := by
  cases font with
  | none => exact Nat.zero_le _
  | some f => exact f.fits.trans (by decide : Config.fontMax ≤ Config.memSize)

theorem resetWith_eq (p : Config.Params) : resetWith p =
    { State.reset with indexIncrement := p.indexIncrement, mem := State.reset.mem.writeBytes 0 (fontBytes p.fontImage) } := by
  obtain ⟨_, _ | _⟩ := p <;> rfl

/-- The default parameters store nothing and set the strap to what it is. -/
theorem resetWith_default : resetWith {} = State.reset := resetWith_eq {}

/-- Settles O50: the font is stored inside reset's canonical memory, and above it memory is as reset left it. -/
theorem fontImageFillsLowMemory : Obligations.FontImageFillsLowMemory := by
  intro inc font
  rw [resetWith_eq]
  refine ⟨rfl, fun k b hkb => ?stored, fun a ha => ?zero⟩
  case stored =>
    obtain ⟨hk, rfl⟩ := List.getElem?_eq_some_iff.mp hkb
    have hend := (Nat.zero_add _).trans_le (length_fontBytes_le (some font))
    have hread := Memory.read_writeBytes_inside _ State.reset.mem 0 k hk hend reset_mem_wf
    rwa [Nat.zero_add] at hread
  case zero => exact Memory.read_writeBytes_outside _ State.reset.mem 0 a (.inr ((Nat.zero_add _).trans_le ha))

/-- Settles O49: each field of the reset state is the constant of the table. -/
theorem resetHoldsTheListedValues : Obligations.ResetHoldsTheListedValues := by
  refine ⟨fun k => ?v, rfl, rfl, rfl, fun k => ?stack, Memory.read_nil, rfl, rfl, ?fb, fun k => ?key, rfl, resetWith_default⟩
  case v | stack | key => exact Vector.getElem_replicate k.isLt
  case fb => exact Framebuffer.cell_blank

/-- Reset's memory is canonical with or without a font, its pc is 0x200, and its stack is empty. -/
theorem inv_resetWith (p : Config.Params) : (resetWith p).Inv := by
  rw [resetWith_eq]
  refine ⟨?mem, ?pc, fun k hk => ?stack⟩
  case mem => exact Memory.wf_writeBytes _ _ 0 ((Nat.zero_add _).trans_le (length_fontBytes_le p.fontImage)) reset_mem_wf
  case pc => exact (by decide : State.reset.pc.toNat ≤ 0x10FE)
  case stack => exact absurd hk (Nat.not_lt_zero _)

/-- Settles O51: the default reset is the one with the default parameters. -/
theorem invariantHoldsAtReset : Obligations.InvariantHoldsAtReset := ⟨resetWith_default ▸ inv_resetWith {}, inv_resetWith⟩

/-! ### A Step before any LoadRom (R142) -/

theorem opcodeAtPc_reset : State.reset.opcodeAtPc = 0x0000#16 := rfl

/-- Settles O13: pc is fetchable, the word there is 0x0000, and no row of the opcode table accepts it. -/
theorem stepBeforeLoadRomIsUnknownOpcode : Obligations.StepBeforeLoadRomIsUnknownOpcode := by
  have hd : decode State.reset.opcodeAtPc = .error (.unknownOpcode 0x0000#16) := by rw [opcodeAtPc_reset]; decide
  exact step_of_undecoded (by decide) hd

/-! ### At a self-jump (R150, R62) -/

section
variable {s : State}

/-- A Step at a self-jump completes and answers the state it began in: a fetchable pc is its own 12-bit target. -/
theorem hostApply_step_of_atSelfJump (h : s.atSelfJump = true) : hostApply .step s = (s, .ok) := by
  obtain ⟨hf, hop⟩ := s.atSelfJump_iff.mp h
  have hpc : s.pc.toNat ≤ 0xFFE := State.fetchable_iff.mp hf
  have htarget : zextAddr (s.pc.setWidth 12) = s.pc := BitVec.eq_of_toNat_eq <| by
    rw [zextAddr_toNat, BitVec.toNat_setWidth, Nat.mod_eq_of_lt (by omega)]
  exact hostApply_step_next (step_of_selfJump hf htarget hop)

/-- At a self-jump no operation but LoadRom faults or leaves it: a Step changes nothing, the others neither pc nor memory. -/
theorem hostApply_keeps_atSelfJump {op : HostOp} (h : s.atSelfJump = true) (hop : ∀ bytes, op ≠ .loadRom bytes) :
    (hostApply op s).2.isStepFault = false ∧ (hostApply op s).1.atSelfJump = true := by
  cases op with
  | loadRom bytes => exact absurd rfl (hop bytes)
  | step => rw [hostApply_step_of_atSelfJump h]; exact ⟨rfl, h⟩
  | tick => exact ⟨rfl, (State.atSelfJump_congr (tick_pc s) (tick_mem s)).trans h⟩
  | setKey k b => exact ⟨rfl, (State.atSelfJump_congr (setKey_pc s k b) (setKey_mem s k b)).trans h⟩
  | observe => exact ⟨rfl, h⟩

/-- So from a self-jump every schedule without a LoadRom is one of an ended program. -/
theorem programEnded_of_atSelfJump {more : List HostOp} (h : s.atSelfJump = true)
    (hmore : ∀ bytes, .loadRom bytes ∉ more) : programEnded more s = true := by
  induction more generalizing s with
  | nil => exact (programEnded_iff [] s).mpr ⟨rfl, h⟩
  | cons op rest ih =>
    obtain ⟨hfault, hjump⟩ := hostApply_keeps_atSelfJump h fun bytes hop => hmore bytes (hop ▸ List.mem_cons_self)
    have hrest := ih hjump fun bytes hmem => hmore bytes (List.mem_cons_of_mem op hmem)
    rw [programEnded_iff] at hrest ⊢
    rwa [runFaulted_cons, hfault, Bool.false_or, hostRun_cons]

/-- And Steps alone leave the whole state as it is. -/
theorem hostRun_steps_of_atSelfJump {more : List HostOp} (h : s.atSelfJump = true) (hmore : ∀ op ∈ more, op = .step) :
    hostRun more s = s := by
  induction more with
  | nil => rfl
  | cons op rest ih =>
    obtain ⟨rfl, hrest⟩ := List.forall_mem_cons.mp hmore
    rw [hostRun_cons, hostApply_step_of_atSelfJump h, ih hrest]

end

/-- A schedule in two parts has ended when no Step of the first faulted and the second ends from where the first left off. -/
theorem programEnded_append (ops more : List HostOp) (s : State) : programEnded (ops ++ more) s = true ↔
    runFaulted ops s = false ∧ programEnded more (hostRun ops s) = true := by
  simp only [programEnded_iff, runFaulted_append, hostRun_append, Bool.or_eq_false_iff, and_assoc]

/-- Settles O58: the first schedule leaves the machine at a self-jump, and the second starts there. -/
theorem endedProgramStaysEnded : Obligations.EndedProgramStaysEnded := by
  intro ops more s hended
  obtain ⟨hfault, hjump⟩ := (programEnded_iff ops s).mp hended
  refine ⟨fun hmore => ?ended, fun hmore => ?unchanged⟩
  case ended => exact (programEnded_append ops more s).mpr ⟨hfault, programEnded_of_atSelfJump hjump hmore⟩
  case unchanged => rw [hostRun_append, hostRun_steps_of_atSelfJump hjump hmore]

end Sys2Proof.Machine
